-- ==== Sys2Proof/Word.lean ====
section
/-! DEFINITION. The two word types of the block: the byte, in which every packet field is held (00_scope.md R7),
and the 32-bit word of the input events, the masks and the telemetry fields (R7, R60). -/

namespace Sys2Proof

/-- One byte (R7, R8). -/
abbrev Byte := BitVec 8

/-- A 32-bit word: an input event's header or operand (R60), a mask (R27), a telemetry value (R168). -/
abbrev Word := BitVec 32

end Sys2Proof
end

