-- ==== Sys2Proof/Config.lean ====
section
/-! DEFINITION. The parameters of 00_scope.md R6. The spec makes them arguments of the model and gives no value
(but a default for SEQ_RESET), so a `Config` is a field of State that no input writes (R52, R212), and the
implementation's own is an opaque constant (log 3). The constraints of R6 and R212 hold by construction: an
ill-formed configuration cannot be written down (93_implementation_defined.md I12). -/

namespace Sys2Proof

/-- What SEND does when the slot at SEQ_CTR is pending (R6, R123, R124; D6 leaves it OPEN). -/
inductive AllocPolicy where
  | failFast
  | block
deriving DecidableEq, Repr, Inhabited

/-- A (deviceId, commandId) pair (R6). -/
structure PacketId where
  did : Byte
  cid : Byte
deriving DecidableEq, Repr, Inhabited

/-- A field descriptor (R160): the name and the reserved flag are all that varies from position to position. -/
structure FieldDescriptor where
  name : String
  reserved : Bool
deriving DecidableEq, Repr, Inhabited

/-- The width of every telemetry field, in bytes (R7, R160). -/
def fieldWidthBytes : Nat := 4

/-- The parameter table of R6. A lower bound is met by storing the excess over it, an upper bound by `Fin`. -/
structure Config where
  /-- TIMEOUT_TICKS less 1 (R6: an integer of at least 1). -/
  timeoutLess1 : Nat
  /-- TICK_PERIOD less 1, in a time unit the spec does not name; informative only, no rule reads it (R6, log 12). -/
  tickPeriodLess1 : Nat
  /-- SEQ_RESET (R6: 0 to 254). -/
  seqReset : Fin 255
  /-- ALLOC_POLICY (R6). -/
  allocPolicy : AllocPolicy
  /-- MAX_TX_PAYLOAD (R6: 0 to 65535). -/
  maxTxPayload : Fin 65536
  /-- RX_BUF_MAX less 16 (R6: 16 to 65535). -/
  rxBufLess16 : Fin 65520
  /-- TELEM_ID (R6). -/
  telemId : PacketId
  /-- COLLISION_ID (R6). -/
  collisionId : PacketId
  /-- SLEEPWARN_ID (R6). -/
  sleepWarnId : PacketId
  /-- SLEEPING_ID (R6). -/
  sleepingId : PacketId
  /-- FIELD_NAME[1][b] and FIELD_RESERVED[1][b] (R6, R72). -/
  fields1 : Vector FieldDescriptor 32
  /-- FIELD_NAME[2][b] and FIELD_RESERVED[2][b] (R6, R72). -/
  fields2 : Vector FieldDescriptor 32
deriving DecidableEq, Repr, Inhabited

/-- TIMEOUT_TICKS (R6). -/
def Config.timeoutTicks (c : Config) : Nat := c.timeoutLess1 + 1

/-- RX_BUF_MAX (R6). -/
def Config.rxBufMax (c : Config) : Nat := c.rxBufLess16.val + 16

/-- The parameters of the implementation at hand. Each implementation decides them (I3, I5, I8), so nothing is
known of this constant (log 3). DESIGN CHOICE, safe. -/
opaque Config.implementation : Config

/-- The parameters at State.reset: the implementation's, with the default the spec gives SEQ_RESET
(R6, R23, R34, D5; log 4). DESIGN CHOICE, unsafe for an implementation that sets another SEQ_RESET. -/
def Config.atReset : Config := { Config.implementation with seqReset := 0 }

end Sys2Proof
end

