-- ==== Sys2Proof/Syntax.lean ====
section
/-! DEFINITION. The block's inputs as syntax: one constructor of `Instr` for each row of spec/opcode_table.json,
in the table's order. The table has three formats: HOST_EVENT_WORD (30_encoding.md R60 to R66), RX_DECODE (R67)
and PACKET_CLASS (R68). -/

namespace Sys2Proof

/-- RX_STATE (10_state.md R21). The code 0b11 is never reached and has no meaning (R93, I11), so the type leaves
it out. -/
inductive RxState where
  | idle
  | inPacket
  | escPending
deriving DecidableEq, Repr, Inhabited

/-- The four bytes every packet begins with (R59, R69). -/
structure Header where
  flags : Byte
  did : Byte
  cid : Byte
  seq : Byte
deriving DecidableEq, Repr, Inhabited

/-- The header's bytes in wire order (R41, R59). -/
def Header.bytes (h : Header) : List Byte := [h.flags, h.did, h.cid, h.seq]

/-- The rows of the RX_DECODE format (R67): what one received byte is, by RX_STATE and byte class. -/
inductive RxRow where
  | idleStart
  | idleOther (b : Byte)
  | inStart
  | inEnd
  | inEscape
  | inData (b : Byte)
  | escAny (b : Byte)
deriving DecidableEq, Repr

/-- The classes of a closed packet (R68). -/
inductive PacketClass where
  | telemetry
  | collision
  | sleepWarning
  | sleeping
  | sync
deriving DecidableEq, Repr

/-- A closed packet with its fields taken apart (R69, R108, R109): only a synchronous response has a
responseCode byte. -/
inductive Packet where
  | telemetry (h : Header) (data : List Byte) (chk : Byte)
  | collision (h : Header) (data : List Byte) (chk : Byte)
  | sleepWarning (h : Header) (data : List Byte) (chk : Byte)
  | sleeping (h : Header) (data : List Byte) (chk : Byte)
  | sync (h : Header) (rc : Byte) (data : List Byte) (chk : Byte)
deriving DecidableEq, Repr

/-- The rows of spec/opcode_table.json. -/
inductive Instr where
  /-- SEND (R61, R121): OP = 0x1, FLAGS, DID, CID, then LEN and LEN payload bytes. -/
  | send (flags did cid : Byte) (payload : List Byte)
  /-- SET_MASK1 (R62, R162): OP = 0x2 and a 32-bit mask. -/
  | setMask1 (m : Word)
  /-- SET_MASK2 (R62, R163): OP = 0x3 and a 32-bit mask. -/
  | setMask2 (m : Word)
  /-- RX_BYTE (R63, R82): OP = 0x4 and one received byte. -/
  | rxByte (b : Byte)
  /-- TICK (R64, R127): OP = 0x5. -/
  | tick
  /-- RESET (R65, R210): OP = 0x6. -/
  | reset
  /-- RESERVED_OP0 (R66): OP = 0x0, the other 28 bits as found. -/
  | reservedOp0 (rest : BitVec 28)
  /-- RESERVED_OP7 (R66): OP = 0x7, the other 28 bits as found. -/
  | reservedOp7 (rest : BitVec 28)
  /-- RESERVED_OP8_F (R66): OP = 0x8 to 0xF, the 31 bits below the top one as found. -/
  | reservedOp8F (rest : BitVec 31)
  /-- RX_IDLE_START (R83). -/
  | rxIdleStart
  /-- RX_IDLE_OTHER (R84). -/
  | rxIdleOther (b : Byte)
  /-- RX_IN_START (R85). -/
  | rxInStart
  /-- RX_IN_END (R86). -/
  | rxInEnd
  /-- RX_IN_ESCAPE (R87). -/
  | rxInEscape
  /-- RX_IN_DATA (R88). -/
  | rxInData (b : Byte)
  /-- RX_ESC_ANY (R89). -/
  | rxEscAny (b : Byte)
  /-- PKT_TELEMETRY (R142, R166). -/
  | pktTelemetry (h : Header) (data : List Byte) (chk : Byte)
  /-- PKT_COLLISION (R143, R144). -/
  | pktCollision (h : Header) (data : List Byte) (chk : Byte)
  /-- PKT_SLEEP_WARNING (R145). -/
  | pktSleepWarning (h : Header) (data : List Byte) (chk : Byte)
  /-- PKT_SLEEPING (R146). -/
  | pktSleeping (h : Header) (data : List Byte) (chk : Byte)
  /-- PKT_SYNC (R147, R125). -/
  | pktSync (h : Header) (rc : Byte) (data : List Byte) (chk : Byte)
deriving DecidableEq, Repr

/-- The instruction that an RX_DECODE row is. -/
def RxRow.toInstr : RxRow → Instr
  | .idleStart => .rxIdleStart
  | .idleOther b => .rxIdleOther b
  | .inStart => .rxInStart
  | .inEnd => .rxInEnd
  | .inEscape => .rxInEscape
  | .inData b => .rxInData b
  | .escAny b => .rxEscAny b

/-- The instruction that a classified packet is. -/
def Packet.toInstr : Packet → Instr
  | .telemetry h data chk => .pktTelemetry h data chk
  | .collision h data chk => .pktCollision h data chk
  | .sleepWarning h data chk => .pktSleepWarning h data chk
  | .sleeping h data chk => .pktSleeping h data chk
  | .sync h rc data chk => .pktSync h rc data chk

end Sys2Proof
end

