-- ==== Sys2Proof/WellFormed.lean ====
section
/-! DEFINITION. Which terms of `Instr` an encoding exists for: the operand ranges of the three formats of
30_encoding.md (R61, R67, R68). The classes' conditions depend on the identifier parameters, so the check takes
the configuration. -/

namespace Sys2Proof

/-- The header bears the identifier pair `p` (R68). -/
def Header.hasId (h : Header) (p : PacketId) : Bool := h.did == p.did && h.cid == p.cid

/-- The header bears the async sentinel as its sequence number (R56). -/
def Header.hasSentinel (h : Header) : Bool := h.seq == 0xFF

/-- Line 1 of the table of R68. -/
def Header.fitsTelemetry (c : Config) (h : Header) : Bool := h.hasId c.telemId && h.hasSentinel

/-- Line 2 of the table of R68: any sequence number (90_conflicts.md C7). -/
def Header.fitsCollision (c : Config) (h : Header) : Bool := h.hasId c.collisionId

/-- Line 3 of the table of R68. -/
def Header.fitsSleepWarning (c : Config) (h : Header) : Bool := h.hasId c.sleepWarnId && h.hasSentinel

/-- Line 4 of the table of R68. -/
def Header.fitsSleeping (c : Config) (h : Header) : Bool := h.hasId c.sleepingId && h.hasSentinel

/-- The check of one instruction's operands against its row. -/
def Instr.check (c : Config) : Instr → Bool
  | .send _ _ _ payload => decide (payload.length < 65536)
  | .setMask1 _ => true
  | .setMask2 _ => true
  | .rxByte _ => true
  | .tick => true
  | .reset => true
  | .reservedOp0 _ => true
  | .reservedOp7 _ => true
  | .reservedOp8F _ => true
  | .rxIdleStart => true
  | .rxIdleOther b => b != 0x8D
  | .rxInStart => true
  | .rxInEnd => true
  | .rxInEscape => true
  | .rxInData b => b != 0x8D && b != 0xD8 && b != 0xAB
  | .rxEscAny _ => true
  | .pktTelemetry h data _ => h.fitsTelemetry c && decide (data.length + 5 ≤ c.rxBufMax)
  | .pktCollision h data _ =>
      h.fitsCollision c && !h.fitsTelemetry c && decide (data.length + 5 ≤ c.rxBufMax)
  | .pktSleepWarning h data _ =>
      h.fitsSleepWarning c && !h.fitsTelemetry c && !h.fitsCollision c && decide (data.length + 5 ≤ c.rxBufMax)
  | .pktSleeping h data _ =>
      h.fitsSleeping c && !h.fitsTelemetry c && !h.fitsCollision c && !h.fitsSleepWarning c
        && decide (data.length + 5 ≤ c.rxBufMax)
  | .pktSync h _ data _ =>
      !h.fitsTelemetry c && !h.fitsCollision c && !h.fitsSleepWarning c && !h.fitsSleeping c
        && decide (data.length + 6 ≤ c.rxBufMax)

/-- The instruction has an encoding under the configuration `c`. -/
abbrev Instr.WellFormed (c : Config) (i : Instr) : Prop := i.check c = true

end Sys2Proof
end

