-- ==== Sys2Proof/Decode.lean ====
section
/-! DEFINITION. The decoders of the three formats of spec/opcode_table.json, and the encoder. An input event is
read from the bytes at a port, each 32-bit word big-endian (00_scope.md R9, log 2); an RX_DECODE key is ten bits
(30_encoding.md R67); a PACKET_CLASS row is read from a closed packet (R68, R69). -/

namespace Sys2Proof

/-! ### Bytes and words -/

/-- `be32` of R9: four bytes, the most significant first. -/
def wordOfBytes (a b c d : Byte) : Word := a ++ b ++ c ++ d

/-- The four bytes of a word, the most significant first (R9). -/
def bytesOfWord (w : Word) : List Byte :=
  [w.extractLsb' 24 8, w.extractLsb' 16 8, w.extractLsb' 8 8, w.extractLsb' 0 8]

/-! ### Input events (R60 to R66) -/

/-- What a decoder makes of the bytes at a port. -/
inductive Decoded where
  /-- One whole input event, and the bytes behind it. -/
  | event (i : Instr) (rest : List Byte)
  /-- A must-be-zero bit is not zero: `refuse(RESERVED_ENCODING)` (R66). -/
  | reserved
  /-- The port does not hold one whole event, and what it holds shows no must-be-zero bit that is set (log 6,
  log 21). -/
  | incomplete
deriving DecidableEq, Repr

/-- SEND's operand word and payload (R61). A must-be-zero bit of the operand word is refused before the payload is
at the port, while the bound on LEN is tested by SEND's meaning, so once all LEN bytes are there: the spec does not
say when (DESIGN CHOICE, log 21). -/
def decodeSend (flags did cid : Byte) : List Byte → Decoded
  | a :: b :: c :: d :: rest =>
      let w1 := wordOfBytes a b c d
      if w1.extractLsb' 16 16 ≠ 0 then .reserved
      else
        let len := (w1.extractLsb' 0 16).toNat
        if rest.length < len then .incomplete
        else .event (.send flags did cid (rest.take len)) (rest.drop len)
  | _ => .incomplete

/-- The operand word of SET_MASK1 and SET_MASK2 (R62). -/
def decodeMask (mk : Word → Instr) : List Byte → Decoded
  | a :: b :: c :: d :: rest => .event (mk (wordOfBytes a b c d)) rest
  | _ => .incomplete

/-- The event with header word `w`, its operands in `rest` (R60 to R66). A must-be-zero bit of the header is refused
as soon as the header is at the port, be the operands there or not: the spec does not say when (DESIGN CHOICE,
log 21). -/
def decodeHeader (w : Word) (rest : List Byte) : Decoded :=
  match (w.extractLsb' 28 4).toNat with
  | 0 => .event (.reservedOp0 (w.extractLsb' 0 28)) rest
  | 1 =>
      if w.extractLsb' 24 4 ≠ 0 then .reserved
      else decodeSend (w.extractLsb' 16 8) (w.extractLsb' 8 8) (w.extractLsb' 0 8) rest
  | 2 => if w.extractLsb' 0 28 ≠ 0 then .reserved else decodeMask .setMask1 rest
  | 3 => if w.extractLsb' 0 28 ≠ 0 then .reserved else decodeMask .setMask2 rest
  | 4 => if w.extractLsb' 8 20 ≠ 0 then .reserved else .event (.rxByte (w.extractLsb' 0 8)) rest
  | 5 => if w.extractLsb' 0 28 ≠ 0 then .reserved else .event .tick rest
  | 6 => if w.extractLsb' 0 28 ≠ 0 then .reserved else .event .reset rest
  | 7 => .event (.reservedOp7 (w.extractLsb' 0 28)) rest
  | _ => .event (.reservedOp8F (w.extractLsb' 0 31)) rest

/-- The event at the front of a port's bytes. -/
def decode : List Byte → Decoded
  | a :: b :: c :: d :: rest => decodeHeader (wordOfBytes a b c d) rest
  | _ => .incomplete

/-! ### Received-byte classes (R55, R67) -/

/-- START (R55). -/
def startByte : Byte := 0x8D

/-- END (R55). -/
def endByte : Byte := 0xD8

/-- ESCAPE (R55). -/
def escapeByte : Byte := 0xAB

/-- `is_marker` of R55. -/
def isMarker (b : Byte) : Bool := b == startByte || b == endByte || b == escapeByte

/-- The decode table of R67. -/
def rxDecode (st : RxState) (b : Byte) : RxRow :=
  match st with
  | .idle => if b = startByte then .idleStart else .idleOther b
  | .inPacket =>
      if b = startByte then .inStart
      else if b = endByte then .inEnd
      else if b = escapeByte then .inEscape
      else .inData b
  | .escPending => .escAny b

/-- The code of RX_STATE (R21). -/
def rxStateCode : RxState → BitVec 2
  | .idle => 0b00
  | .inPacket => 0b01
  | .escPending => 0b10

/-- The state a code stands for; 0b11 stands for none (R93). -/
def rxStateOfCode (k : BitVec 2) : Option RxState :=
  if k = 0b00 then some .idle
  else if k = 0b01 then some .inPacket
  else if k = 0b10 then some .escPending
  else none

/-- The row that the ten-bit key {RX_STATE, B} selects. -/
def decodeRxKey (k : BitVec 10) : Option RxRow :=
  (rxStateOfCode (k.extractLsb' 8 2)).map fun st => rxDecode st (k.extractLsb' 0 8)

/-! ### Packet classes (R68, R69, R141) -/

/-- CLASSIFY of R141: the first line that holds wins. -/
def classify (c : Config) (did cid seq : Byte) : PacketClass :=
  if (⟨did, cid⟩ : PacketId) = c.telemId ∧ seq = 0xFF then .telemetry
  else if (⟨did, cid⟩ : PacketId) = c.collisionId then .collision
  else if (⟨did, cid⟩ : PacketId) = c.sleepWarnId ∧ seq = 0xFF then .sleepWarning
  else if (⟨did, cid⟩ : PacketId) = c.sleepingId ∧ seq = 0xFF then .sleeping
  else .sync

/-- The packet of class `cls` with the bytes `body` between header and checksum (R69, R108, R109). A SYNC packet
with no room for a responseCode has no slicing (R105). -/
def slicePacket (cls : PacketClass) (h : Header) (body : List Byte) (chk : Byte) : Option Packet :=
  match cls with
  | .telemetry => some (.telemetry h body chk)
  | .collision => some (.collision h body chk)
  | .sleepWarning => some (.sleepWarning h body chk)
  | .sleeping => some (.sleeping h body chk)
  | .sync =>
      match body with
      | rc :: data => some (.sync h rc data chk)
      | [] => none

/-- A closed packet classified and taken apart; `none` where it is SHORT: below 5 bytes, or SYNC below 6 (R105). -/
def decodePacket (c : Config) : List Byte → Option Packet
  | flags :: did :: cid :: seq :: rest =>
      match rest.getLast? with
      | none => none
      | some chk => slicePacket (classify c did cid seq) ⟨flags, did, cid, seq⟩ rest.dropLast chk
  | _ => none

/-- The bytes of a packet with these fields (R59). -/
def packetBytes : Packet → List Byte
  | .telemetry h data chk => h.bytes ++ data ++ [chk]
  | .collision h data chk => h.bytes ++ data ++ [chk]
  | .sleepWarning h data chk => h.bytes ++ data ++ [chk]
  | .sleeping h data chk => h.bytes ++ data ++ [chk]
  | .sync h rc data chk => h.bytes ++ rc :: data ++ [chk]

/-! ### The encoder, and the three formats together -/

/-- A code of one of the three formats. -/
inductive Code where
  /-- The bytes of an input event (R60). -/
  | event (bytes : List Byte)
  /-- An RX_DECODE key (R67). -/
  | rxKey (key : BitVec 10)
  /-- A closed packet (R59, R68). -/
  | packet (bytes : List Byte)
deriving DecidableEq, Repr

/-- SEND's bytes (R61). -/
def encodeSend (flags did cid : Byte) (payload : List Byte) : List Byte :=
  bytesOfWord (0x10#8 ++ flags ++ did ++ cid)
    ++ bytesOfWord (0#16 ++ BitVec.ofNat 16 payload.length) ++ payload

/-- An RX_DECODE key: {RX_STATE, B} (R67). -/
def encodeRxKey (st : RxState) (b : Byte) : BitVec 10 := rxStateCode st ++ b

/-- The code of an instruction, by the layouts of R61 to R68. -/
def encode : Instr → Code
  | .send flags did cid payload => .event (encodeSend flags did cid payload)
  | .setMask1 m => .event (bytesOfWord 0x20000000 ++ bytesOfWord m)
  | .setMask2 m => .event (bytesOfWord 0x30000000 ++ bytesOfWord m)
  | .rxByte b => .event (bytesOfWord (0x400000#24 ++ b))
  | .tick => .event (bytesOfWord 0x50000000)
  | .reset => .event (bytesOfWord 0x60000000)
  | .reservedOp0 rest => .event (bytesOfWord (0x0#4 ++ rest))
  | .reservedOp7 rest => .event (bytesOfWord (0x7#4 ++ rest))
  | .reservedOp8F rest => .event (bytesOfWord (0b1#1 ++ rest))
  | .rxIdleStart => .rxKey (encodeRxKey .idle 0x8D)
  | .rxIdleOther b => .rxKey (encodeRxKey .idle b)
  | .rxInStart => .rxKey (encodeRxKey .inPacket 0x8D)
  | .rxInEnd => .rxKey (encodeRxKey .inPacket 0xD8)
  | .rxInEscape => .rxKey (encodeRxKey .inPacket 0xAB)
  | .rxInData b => .rxKey (encodeRxKey .inPacket b)
  | .rxEscAny b => .rxKey (encodeRxKey .escPending b)
  | .pktTelemetry h data chk => .packet (packetBytes (.telemetry h data chk))
  | .pktCollision h data chk => .packet (packetBytes (.collision h data chk))
  | .pktSleepWarning h data chk => .packet (packetBytes (.sleepWarning h data chk))
  | .pktSleeping h data chk => .packet (packetBytes (.sleeping h data chk))
  | .pktSync h rc data chk => .packet (packetBytes (.sync h rc data chk))

/-- The instruction that a code stands for, and the bytes behind it where the code is an event's. -/
def decodeCode (c : Config) : Code → Option (Instr × List Byte)
  | .event bytes =>
      match decode bytes with
      | .event i rest => some (i, rest)
      | .reserved => none
      | .incomplete => none
  | .rxKey key => (decodeRxKey key).map fun row => (row.toInstr, [])
  | .packet bytes => (decodePacket c bytes).map fun p => (p.toInstr, [])

/-! ### The table's words, as the host numbers them -/

/-- The bytes of the event whose header and operand words are numbered in `w`, the first word lowest. A payload,
which the table gives no bits, is zeros. -/
def tableEventBytes (w : Nat) : List Byte :=
  let w0 := BitVec.ofNat 32 w
  let w1 := BitVec.ofNat 32 (w >>> 32)
  match (w0.extractLsb' 28 4).toNat with
  | 1 => bytesOfWord w0 ++ bytesOfWord w1 ++ List.replicate (w1.extractLsb' 0 16).toNat 0
  | 2 => bytesOfWord w0 ++ bytesOfWord w1
  | 3 => bytesOfWord w0 ++ bytesOfWord w1
  | _ => bytesOfWord w0

/-- The packet with the 24-bit key {did, cid, seq} of `w` and every other byte zero, sixteen bytes in all (log 7). -/
def tablePacketBytes (w : Nat) : List Byte :=
  let k := BitVec.ofNat 24 w
  [0, k.extractLsb' 16 8, k.extractLsb' 8 8, k.extractLsb' 0 8] ++ List.replicate 12 0

/-- The instruction that the decoders read from a word of the opcode table: 16 bits hold an RX_DECODE key, 24 bits
a PACKET_CLASS key, 32 bits or more an input event (log 7). -/
def decodeTableWord (nbits w : Nat) : Option Instr :=
  if nbits = 16 then
    if w < 1024 then (decodeRxKey (BitVec.ofNat 10 w)).map RxRow.toInstr else none
  else if nbits = 24 then (decodePacket Config.atReset (tablePacketBytes w)).map Packet.toInstr
  else if nbits = 32 ∨ nbits = 64 then
    match decode (tableEventBytes w) with
    | .event i _ => some i
    | .reserved => none
    | .incomplete => none
  else none

end Sys2Proof
end

