-- ==== Sys2Proof/Machine/State.lean ====
section
/-! DEFINITION. The state of the block (10_state.md R20 to R34), the inputs waiting at its ports (00_scope.md R5),
and the reasons a step can stop. Plain data throughout. -/

namespace Sys2Proof.Machine

/-- One slot of the pending-request table (R24, R25, R120): PEND_VALID[s] and PEND_TIMER[s]. -/
structure Slot where
  /-- PEND_VALID[s] (R24). -/
  valid : Bool
  /-- PEND_TIMER[s], the ticks left (R25). -/
  timer : Nat
deriving DecidableEq, Repr, Inhabited

/-- The input ports (R5, R60). -/
inductive Port where
  /-- The host command port: SEND, SET_MASK1, SET_MASK2. -/
  | host
  /-- The transport receive port: RX_BYTE. -/
  | transport
  /-- The tick input: TICK. -/
  | tick
  /-- The reset input: RESET. -/
  | reset
deriving DecidableEq, Repr, Inhabited

/-- The block, its configuration and its waiting inputs. The first nine fields after `cfg` are the state of R20 and
its two logs (R29, R30); `cfg` holds the parameters of R6, which nothing writes (log 3); the last five are the
model's own, the inputs that the outside has presented and the order in which the serialiser will take them
(log 1). -/
@[ext]
structure State where
  /-- The parameters (R6). -/
  cfg : Config
  /-- RX_STATE (R21). -/
  rxState : RxState
  /-- RX_BUF (R22). -/
  rxBuf : List Byte
  /-- SEQ_CTR (R23). -/
  seqCtr : Byte
  /-- PEND_VALID[0..254] and PEND_TIMER[0..254] (R24, R25). -/
  slots : Vector Slot 255
  /-- MASK1 (R27). -/
  mask1 : Word
  /-- MASK2 (R27). -/
  mask2 : Word
  /-- TX_LOG (R29, log 13). -/
  txLog : List Byte
  /-- EV_LOG (R30): one byte record for each event (R73, log 13). -/
  evLog : List (List Byte)
  /-- The events waiting at the host command port (R5 (a)). -/
  hostPort : List Byte
  /-- The events waiting at the transport receive port (R5 (b)). -/
  rxPort : List Byte
  /-- The events waiting at the tick input (R5 (c)). -/
  tickPort : List Byte
  /-- The events waiting at the reset input (R5 (d)). -/
  resetPort : List Byte
  /-- The ports from which the serialiser SCHED will take inputs, the next one first (R4, R5, D1). Any list may
  stand here, so every interleaving is admitted. -/
  sched : List Port
deriving DecidableEq, Repr

/-- The block at power-on under the configuration `c` (R34, R211): no input is waiting. -/
def State.powerOn (c : Config) : State where
  cfg := c
  rxState := .idle
  rxBuf := []
  seqCtr := BitVec.ofNat 8 c.seqReset.val
  slots := Vector.replicate 255 ⟨false, 0⟩
  mask1 := 0
  mask2 := 0
  txLog := []
  evLog := []
  hostPort := []
  rxPort := []
  tickPort := []
  resetPort := []
  sched := []

/-- The block right after power-on (R211), under the implementation's parameters and the spec's default SEQ_RESET
(log 3, log 4). -/
def State.reset : State := State.powerOn Config.atReset

/-- MALFORMED reasons (R75). -/
inductive MalformedReason where
  | short
  | truncated
  | overflow
  | collisionShort
deriving DecidableEq, Repr

/-- One decoded telemetry field (R73, R166): its group, its bit and its raw 32-bit word (R168). -/
structure TelemetryField where
  group : Byte
  bit : Nat
  value : Word
deriving DecidableEq, Repr

/-- A decoded collision record (R70, R143). X, Y and Z are the 16-bit two's-complement words as received. -/
structure CollisionRecord where
  x : BitVec 16
  y : BitVec 16
  z : BitVec 16
  axis : Byte
  xMagnitude : BitVec 16
  yMagnitude : BitVec 16
  extra : List Byte
deriving DecidableEq, Repr

/-- The events of the block (R73). -/
inductive Event where
  | sendAccepted (seq : Byte)
  /-- The one reason is SEQ_BUSY (R123). -/
  | sendRejectedBusy
  | response (seq rc warn : Byte) (data : List Byte)
  | timeout (seq : Byte)
  | telemetry (warn : Byte) (fields : List TelemetryField)
  | collision (warn : Byte) (record : CollisionRecord)
  | sleepWarning (warn : Byte)
  | sleeping (warn : Byte)
  | telemetryError (warn : Byte) (expected actual : Nat)
  | unmatched (seq warn : Byte)
  | malformed (reason : MalformedReason)
deriving DecidableEq, Repr

/-- Why the machine stops. The block itself raises no fault (R180); this is the model's. -/
inductive Fault where
  /-- Raised by `step` alone: the serialiser has chosen no further input, so the run is over (R221, log 6).
  Safe: the model claims nothing beyond the last input. -/
  | noInput
deriving DecidableEq, Repr

/-- Why an input has no meaning (R10 `refuse`). -/
inductive Refusal where
  /-- Raised by `exec` for an instruction that has no meaning in the model yet. Safe. No arm raises it. -/
  | notModelled (mnemonic : String)
  /-- RESERVED_ENCODING (R66, I1), raised by `step` for a non-zero must-be-zero bit and by the meanings of the
  reserved OPs. Safe: the model claims nothing about such an input. -/
  | reservedEncoding
  /-- PAYLOAD_TOO_LONG (R66, I2), raised by SEND's meaning for a payload beyond MAX_TX_PAYLOAD. Safe: the model
  claims nothing about such an input. -/
  | payloadTooLong
deriving DecidableEq, Repr

/-- The outcome type of every meaning. -/
abbrev Result := Host.Outcome State Fault Refusal

end Sys2Proof.Machine
end

