-- ==== Sys2Proof/Machine/Flags.lean ====
section
/-! DEFINITION. The checksum (41_framer.md R100) and the warning byte of a record made from a packet
(30_encoding.md R74). They are the block's only flag computations: nothing is stored (10_state.md R31). -/

namespace Sys2Proof.Machine

/-- `sum8` of R9: the sum of a byte list mod 256. -/
def sum8 : List Byte → Byte
  | [] => 0
  | b :: l => b + sum8 l

/-- CHK of R100: the complement of the plain sum mod 256, with no end-around carry (90_conflicts.md C9). -/
def checksum (content : List Byte) : Byte := ~~~ (sum8 content)

/-- `warn[0]`, CHK_MISMATCH (R74, R105, R106): whether the received checksum is that of the content. -/
def checksumWarning (content : List Byte) (chk : Byte) : Byte := if checksum content = chk then 0x00 else 0x01

/-- `warn[1]`, RC_NONZERO (R74, R125), set only in RESPONSE records. -/
def responseWarning (rc : Byte) : Byte := if rc = 0 then 0x00 else 0x02

end Sys2Proof.Machine
end

