-- ==== Sys2Proof/Machine/Framer.lean ====
section
/-! DEFINITION. The encode half of the codec and the framer: escape (40_byte_codec.md R80, R81) and FRAME
(41_framer.md R102). Both are pure. -/

namespace Sys2Proof.Machine

/-- The encode mask of R57. -/
def encodeMask : Byte := 0x77

/-- The decode mask of R57. -/
def decodeMaskByte : Byte := 0x88

/-- ESC_ENC of R80. -/
def escEnc (b : Byte) : List Byte := if isMarker b then [escapeByte, b &&& encodeMask] else [b]

/-- `escape` of R81. -/
def escape (l : List Byte) : List Byte := l.flatMap escEnc

/-- The bytes between the markers of a frame, before escaping: the content and its checksum (R58, R102). -/
def frameBody (flags did cid seq : Byte) (payload : List Byte) : List Byte :=
  let content := [flags, did, cid, seq] ++ payload
  content ++ [checksum content]

/-- FRAME of R102. -/
def frame (flags did cid seq : Byte) (payload : List Byte) : List Byte :=
  [startByte] ++ escape (frameBody flags did cid seq payload) ++ [endByte]

end Sys2Proof.Machine
end

