-- ==== Sys2Proof/Machine/Operands.lean ====
section
/-! DEFINITION. The operand forms: multi-byte fields read from byte lists (00_scope.md R9, 20_memory.md R42), the
collision record (30_encoding.md R70), and the event records written to EV_LOG (R73, R75). -/

namespace Sys2Proof.Machine

/-- Element `i` of a byte list; every caller has checked the length. -/
def byteAt (l : List Byte) (i : Nat) : Byte := l.getD i 0

/-- `be16` of R9. -/
def be16 (l : List Byte) (i : Nat) : BitVec 16 := byteAt l i ++ byteAt l (i + 1)

/-- `be32` of R9. -/
def be32 (l : List Byte) (i : Nat) : Word :=
  byteAt l i ++ byteAt l (i + 1) ++ byteAt l (i + 2) ++ byteAt l (i + 3)

/-- The bytes `v[15:8], v[7:0]` of a length or count (R73, log 15). -/
def lengthBytes (v : Nat) : List Byte := [BitVec.ofNat 8 (v / 256), BitVec.ofNat 8 v]

/-- The bytes of a 16-bit value, the most significant first (R42). -/
def halfBytes (v : BitVec 16) : List Byte := [v.extractLsb' 8 8, v.extractLsb' 0 8]

/-- The bytes of a telemetry value, the most significant first (R73). -/
def valueBytes (v : Word) : List Byte :=
  [v.extractLsb' 24 8, v.extractLsb' 16 8, v.extractLsb' 8 8, v.extractLsb' 0 8]

/-- The least number of data bytes of a collision record (R70, R144). -/
def collisionMinLength : Nat := 11

/-- The collision record at the start of `data` (R70, R143). -/
def readCollision (data : List Byte) : CollisionRecord where
  x := be16 data 0
  y := be16 data 2
  z := be16 data 4
  axis := byteAt data 6
  xMagnitude := be16 data 7
  yMagnitude := be16 data 9
  extra := data.drop 11

/-- The signed reading of a collision component, `sext_16` of R8 (R70; two's complement is PRESUMED, log 14). -/
def signedComponent (v : BitVec 16) : Int := v.toInt

/-- MALFORMED reason codes (R75). -/
def malformedCode : MalformedReason → Byte
  | .short => 0x01
  | .truncated => 0x02
  | .overflow => 0x03
  | .collisionShort => 0x04

/-- One field entry of a TELEMETRY record (R73, R166). -/
def fieldRecord (f : TelemetryField) : List Byte := f.group :: BitVec.ofNat 8 f.bit :: valueBytes f.value

/-- The byte record of an event (R73). -/
def eventRecord : Event → List Byte
  | .sendAccepted seq => [0x01, seq]
  | .sendRejectedBusy => [0x02, 0x01]
  | .response seq rc warn data => [0x03, seq, rc, warn] ++ lengthBytes data.length ++ data
  | .timeout seq => [0x04, seq]
  | .telemetry warn fields => [0x05, warn, BitVec.ofNat 8 fields.length] ++ fields.flatMap fieldRecord
  | .collision warn r =>
      [0x06, warn] ++ halfBytes r.x ++ halfBytes r.y ++ halfBytes r.z ++ [r.axis] ++ halfBytes r.xMagnitude
        ++ halfBytes r.yMagnitude ++ lengthBytes r.extra.length ++ r.extra
  | .sleepWarning warn => [0x07, warn]
  | .sleeping warn => [0x08, warn]
  | .telemetryError warn expected actual => [0x09, warn] ++ lengthBytes expected ++ lengthBytes actual
  | .unmatched seq warn => [0x0A, seq, warn]
  | .malformed reason => [0x0B, malformedCode reason]

end Sys2Proof.Machine
end

