-- ==== Sys2Proof/Machine/Ops.lean ====
section
/-! DEFINITION. The named operations of 00_scope.md R10 over the state, the pending-request table
(42_correlation.md R120), the block reset (70_reset_and_hazards.md R210) and the ports. There is no exception to
take and none to return from (60_exceptions.md R187, R188): an error is an event, reported by `emit`. -/

namespace Sys2Proof.Machine

/-- `emit` of R10 for one record, or for several in their order. -/
def emitRecords (s : State) (records : List (List Byte)) : State := { s with evLog := s.evLog ++ records }

/-- `tx` of R10. -/
def transmit (s : State) (bytes : List Byte) : State := { s with txLog := s.txLog ++ bytes }

/-- `rx_append` of R10; its callers check the bound (R45). -/
def rxAppend (s : State) (b : Byte) : State := { s with rxBuf := s.rxBuf ++ [b] }

/-- `rx_clear` of R10. -/
def rxClear (s : State) : State := { s with rxBuf := [] }

/-- Write RX_STATE. -/
def setRxState (s : State) (r : RxState) : State := { s with rxState := r }

/-- Slot `q` of the pending table. Number 255 has no slot and reads as free (R24, log 11). -/
def slotAt (s : State) (q : Byte) : Slot :=
  if h : q.toNat < 255 then s.slots[q.toNat] else ⟨false, 0⟩

/-- Write slot `q`. Number 255 cannot be written (R24). -/
def setSlot (s : State) (q : Byte) (x : Slot) : State :=
  if h : q.toNat < 255 then { s with slots := s.slots.set q.toNat x } else s

/-- Slot `q` is pending: PEND_VALID[q] = 1 (R24). -/
def isPending (s : State) (q : Byte) : Bool := (slotAt s q).valid

/-- Free slot `q`, leaving its timer as it was (R125, log 16). -/
def freeSlot (s : State) (q : Byte) : State := setSlot s q ⟨false, (slotAt s q).timer⟩

/-- The counter after an allocation: `(v + 1) mod 255` (R23, R122). -/
def nextSeq (v : Byte) : Byte := BitVec.ofNat 8 ((v.toNat + 1) % 255)

/-- The state RESET leaves (R210): every field of R20 at its reset value, the logs kept (R29, R30), and the inputs
that wait outside the block where they are. -/
def resetBlock (s : State) : State :=
  { s with
    rxState := .idle
    rxBuf := []
    seqCtr := BitVec.ofNat 8 s.cfg.seqReset.val
    slots := Vector.replicate 255 ⟨false, 0⟩
    mask1 := 0
    mask2 := 0 }

/-- The bytes waiting at a port. -/
def portBytes (s : State) : Port → List Byte
  | .host => s.hostPort
  | .transport => s.rxPort
  | .tick => s.tickPort
  | .reset => s.resetPort

/-- Replace the bytes waiting at a port. -/
def setPortBytes (s : State) (p : Port) (bytes : List Byte) : State :=
  match p with
  | .host => { s with hostPort := bytes }
  | .transport => { s with rxPort := bytes }
  | .tick => { s with tickPort := bytes }
  | .reset => { s with resetPort := bytes }

/-- Replace the serialiser's coming choices. -/
def setSched (s : State) (ports : List Port) : State := { s with sched := ports }

end Sys2Proof.Machine
end

