-- ==== Sys2Proof/Machine/Correlation.lean ====
section
/-! DEFINITION. The Correlation Engine: SEND (42_correlation.md R121 to R124), TICK and EXPIRE (R127, R128),
RESOLVE and UNMATCHED (R125, R126). -/

namespace Sys2Proof.Machine

/-! ### SEND -/

/-- SEND with a free slot at SEQ_CTR (R121, R122): allocate, record, transmit, report. -/
def acceptSend (flags did cid : Byte) (payload : List Byte) (s : State) : State :=
  let q := s.seqCtr
  let recorded := { setSlot s q ⟨true, s.cfg.timeoutTicks⟩ with seqCtr := nextSeq q }
  emitRecords (transmit recorded (frame flags did cid q payload)) [eventRecord (.sendAccepted q)]

/-- SEND (R121). A payload beyond MAX_TX_PAYLOAD is refused first (R66, log 9, log 18). A busy slot rejects the SEND (R123), or holds it
(R124): a held SEND has no step, so it changes nothing here and `fetch` leaves it at its port (log 5, log 22). -/
def execSend (flags did cid : Byte) (payload : List Byte) (s : State) : Result :=
  if s.cfg.maxTxPayload.val < payload.length then .refused .payloadTooLong
  else if isPending s s.seqCtr then
    match s.cfg.allocPolicy with
    | .failFast => .next (emitRecords s [eventRecord .sendRejectedBusy])
    | .block => .next s
  else .next (acceptSend flags did cid payload s)

/-- The instruction is a SEND that holds in this state (R124). -/
def holdsSend (i : Instr) (s : State) : Bool :=
  match i with
  | .send _ _ _ payload =>
      decide (payload.length ≤ s.cfg.maxTxPayload.val) && isPending s s.seqCtr
        && decide (s.cfg.allocPolicy = .block)
  | _ => false

/-! ### TICK -/

/-- The width TW of a slot's timer, `ceil(log2(TIMEOUT_TICKS + 1))` (R20): the bits that hold TIMEOUT_TICKS. -/
def timerWidth (c : Config) : Nat := Nat.log2 c.timeoutTicks + 1

/-- A timer of `tw` bits counted down by one (R127, R190). A pending slot's timer is never 0 (R26), so the wrap is
not seen in a state that a run reaches (log 8). -/
def timerPred (tw t : Nat) : Nat := (t + 2 ^ tw - 1) % 2 ^ tw

/-- The slot expires on this TICK (R127). -/
def slotExpires (tw : Nat) (x : Slot) : Bool := x.valid && timerPred tw x.timer == 0

/-- A slot after TICK (R127, R128): a free slot's timer is not touched, a slot whose timer reaches 0 is freed. -/
def tickSlot (tw : Nat) (x : Slot) : Slot :=
  if x.valid then ⟨timerPred tw x.timer != 0, timerPred tw x.timer⟩ else x

/-- The TIMEOUT records of the slots numbered from `n` on, in ascending order (R127, R128, D9). -/
def timeoutRecords (tw : Nat) : Nat → List Slot → List (List Byte)
  | _, [] => []
  | n, x :: xs =>
      if slotExpires tw x then eventRecord (.timeout (BitVec.ofNat 8 n)) :: timeoutRecords tw (n + 1) xs
      else timeoutRecords tw (n + 1) xs

/-- TICK (R127). -/
def execTick (s : State) : Result :=
  let tw := timerWidth s.cfg
  .next (emitRecords { s with slots := s.slots.map (tickSlot tw) } (timeoutRecords tw 0 s.slots.toList))

/-! ### RESOLVE -/

/-- UNMATCHED (R126). -/
def unmatchedResponse (q warn0 : Byte) (s : State) : State := emitRecords s [eventRecord (.unmatched q warn0)]

/-- RESOLVE (R125): free the slot and deliver, or drop the packet. Number 0xFF has no slot, so it never
matches (R130). -/
def resolve (q rc : Byte) (data : List Byte) (warn0 : Byte) (s : State) : State :=
  if isPending s q then
    emitRecords (freeSlot s q) [eventRecord (.response q rc (warn0 ||| responseWarning rc) data)]
  else unmatchedResponse q warn0 s

end Sys2Proof.Machine
end

