-- ==== Sys2Proof/Machine/Telemetry.lean ====
section
/-! DEFINITION. The Telemetry Mask Decoder: SET_MASK1 and SET_MASK2 (44_telemetry.md R162, R163), the Active Field
Lists (R161) and TELEM_DECODE (R166, R167). -/

namespace Sys2Proof.Machine

/-- AFL of R161: the set bits of a mask, bit 31 first. -/
def activeBits (m : Word) : List Nat := (List.range 32).reverse.filter fun b => m.getLsbD b

/-- The descriptors of group 1 or 2 (R72, R160). -/
def descriptors (c : Config) (group : Byte) : Vector FieldDescriptor 32 := if group = 1 then c.fields1 else c.fields2

/-- The Active Field List as descriptors (R11, R72, R161): what the consumer of a record reads its names from
(R168). No rule of the block reads a name or a reserved flag (R170, log 19). -/
def activeFields (c : Config) (group : Byte) (m : Word) : List FieldDescriptor :=
  (activeBits m).map fun b => (descriptors c group).toList.getD b default

/-- SET_MASK1 (R162). -/
def execSetMask1 (m : Word) (s : State) : Result := .next { s with mask1 := m }

/-- SET_MASK2 (R163). -/
def execSetMask2 (m : Word) (s : State) : Result := .next { s with mask2 := m }

/-- EXP of R165. -/
def expectedLength (m1 m2 : Word) : Nat := fieldWidthBytes * ((activeBits m1).length + (activeBits m2).length)

/-- The fields of one group, in the order of its Active Field List, each from the next four bytes (R71, R166). -/
def readFields (group : Byte) : List Nat → List Byte → List TelemetryField
  | [], _ => []
  | b :: bits, data => ⟨group, b, be32 data 0⟩ :: readFields group bits (data.drop fieldWidthBytes)

/-- TELEM_DECODE's event (R166, R167): group 2 starts where group 1 ends (R169, 90_conflicts.md C4, log 20). -/
def telemetryEvent (m1 m2 : Word) (data : List Byte) (warn0 : Byte) : Event :=
  if data.length = expectedLength m1 m2 then
    .telemetry warn0
      (readFields 1 (activeBits m1) data
        ++ readFields 2 (activeBits m2) (data.drop (fieldWidthBytes * (activeBits m1).length)))
  else .telemetryError warn0 (expectedLength m1 m2) data.length

end Sys2Proof.Machine
end

