-- ==== Sys2Proof/Machine/Dispatcher.lean ====
section
/-! DEFINITION. The Notification Dispatcher: the meaning of each packet class (43_dispatcher.md R140 to R147) and
DISPATCH over them (R140). A packet's `warn0` is the check of its checksum against all the bytes before it
(41_framer.md R106). -/

namespace Sys2Proof.Machine

/-- PKT_TELEMETRY (R142, R166, R167). -/
def execPktTelemetry (h : Header) (data : List Byte) (chk : Byte) (s : State) : Result :=
  .next (emitRecords s [eventRecord (telemetryEvent s.mask1 s.mask2 data (checksumWarning (h.bytes ++ data) chk))])

/-- PKT_COLLISION (R143, R144). -/
def execPktCollision (h : Header) (data : List Byte) (chk : Byte) (s : State) : Result :=
  if data.length < collisionMinLength then .next (emitRecords s [eventRecord (.malformed .collisionShort)])
  else
    .next (emitRecords s [eventRecord (.collision (checksumWarning (h.bytes ++ data) chk) (readCollision data))])

/-- PKT_SLEEP_WARNING (R145): the data is ignored and no command is sent. -/
def execPktSleepWarning (h : Header) (data : List Byte) (chk : Byte) (s : State) : Result :=
  .next (emitRecords s [eventRecord (.sleepWarning (checksumWarning (h.bytes ++ data) chk))])

/-- PKT_SLEEPING (R146): the data is ignored and pending requests are not affected. -/
def execPktSleeping (h : Header) (data : List Byte) (chk : Byte) (s : State) : Result :=
  .next (emitRecords s [eventRecord (.sleeping (checksumWarning (h.bytes ++ data) chk))])

/-- PKT_SYNC (R147): RESOLVE by the sequence number alone (R125). -/
def execPktSync (h : Header) (rc : Byte) (data : List Byte) (chk : Byte) (s : State) : Result :=
  .next (resolve h.seq rc data (checksumWarning (h.bytes ++ rc :: data) chk) s)

/-- DISPATCH (R140). -/
def dispatchPacket (p : Packet) (s : State) : Result :=
  match p with
  | .telemetry h data chk => execPktTelemetry h data chk s
  | .collision h data chk => execPktCollision h data chk s
  | .sleepWarning h data chk => execPktSleepWarning h data chk s
  | .sleeping h data chk => execPktSleeping h data chk s
  | .sync h rc data chk => execPktSync h rc data chk s

end Sys2Proof.Machine
end

