-- ==== Sys2Proof/Machine/Codec.lean ====
section
/-! DEFINITION. The decode half of the codec: packet close (41_framer.md R105), the rows of the received-byte table
(40_byte_codec.md R83 to R89), RX_BYTE, which runs the row its key selects (R82, 30_encoding.md R67), and
`unescape`, the fold of those rules over a stream (R90). Each row is its rule's conditional: where the rule's condition on RX_STATE and
the byte does not hold, nothing changes (log 7). -/

namespace Sys2Proof.Machine

/-- CLOSE (R105): a packet too short for its class is MALFORMED(SHORT), any other is dispatched, whatever its
checksum (R107). -/
def closePacket (bytes : List Byte) (s : State) : Result :=
  match decodePacket s.cfg bytes with
  | some p => dispatchPacket p s
  | none => .next (emitRecords s [eventRecord (.malformed .short)])

/-- Store a decoded byte and go on in IN_PACKET, or take the overflow path where the buffer is full
(R45, R88, R89). -/
def storeByte (b : Byte) (s : State) : State :=
  if s.rxBuf.length < s.cfg.rxBufMax then setRxState (rxAppend s b) .inPacket
  else setRxState (rxClear (emitRecords s [eventRecord (.malformed .overflow)])) .idle

/-- RX_IDLE_START (R83). -/
def execRxIdleStart (s : State) : Result :=
  if s.rxState = .idle then .next (setRxState (rxClear s) .inPacket) else .next s

/-- RX_IDLE_OTHER (R84): the byte is discarded. -/
def execRxIdleOther (_b : Byte) (s : State) : Result := .next s

/-- RX_IN_START (R85): the partial packet is dropped, reported if it held a byte, and a new one opens. -/
def execRxInStart (s : State) : Result :=
  if s.rxState = .inPacket then
    let reported := if 0 < s.rxBuf.length then emitRecords s [eventRecord (.malformed .truncated)] else s
    .next (setRxState (rxClear reported) .inPacket)
  else .next s

/-- RX_IN_END (R86): close the packet. -/
def execRxInEnd (s : State) : Result :=
  if s.rxState = .inPacket then closePacket s.rxBuf (setRxState (rxClear s) .idle) else .next s

/-- RX_IN_ESCAPE (R87): arm the escape. -/
def execRxInEscape (s : State) : Result :=
  if s.rxState = .inPacket then .next (setRxState s .escPending) else .next s

/-- RX_IN_DATA (R88): store the byte. -/
def execRxInData (b : Byte) (s : State) : Result :=
  if s.rxState = .inPacket ∧ isMarker b = false then .next (storeByte b s) else .next s

/-- RX_ESC_ANY (R89): store `b | 0x88`, whatever the byte. -/
def execRxEscAny (b : Byte) (s : State) : Result :=
  if s.rxState = .escPending then .next (storeByte (b ||| decodeMaskByte) s) else .next s

/-- RX_BYTE (R82): the row that RX_STATE and the byte select. -/
def execRxByte (b : Byte) (s : State) : Result :=
  match rxDecode s.rxState b with
  | .idleStart => execRxIdleStart s
  | .idleOther b => execRxIdleOther b s
  | .inStart => execRxInStart s
  | .inEnd => execRxInEnd s
  | .inEscape => execRxInEscape s
  | .inData b => execRxInData b s
  | .escAny b => execRxEscAny b s

/-- The bytes that a step from `s` to `t` has appended to RX_BUF (R90): those beyond the length it had. No rule
appends after a clear, so a step that clears the buffer has appended none. -/
def appendedBytes (s t : State) : List Byte := t.rxBuf.drop s.rxBuf.length

/-- `unescape` of R90, the fold of R83 to R89 over `streamBytes` from the state `s`: `decodedBytes`, every byte
appended to RX_BUF over the run, whether or not a later START, END or overflow clears the buffer, and `endState`,
the final RX_STATE. The start state is the whole state, since the partial buffer persists with the decoder state. -/
def unescape : List Byte → State → List Byte × RxState
  | [], s => ([], s.rxState)
  | b :: streamBytes, s =>
      match execRxByte b s with
      | .next t =>
          let (decodedBytes, endState) := unescape streamBytes t
          (appendedBytes s t ++ decodedBytes, endState)
      | .fault _ => ([], s.rxState)
      | .refused _ => ([], s.rxState)

end Sys2Proof.Machine
end

