-- ==== Sys2Proof/Machine/Control.lean ====
section
/-! DEFINITION. RESET (70_reset_and_hazards.md R210) and the reserved OPs (30_encoding.md R66). -/

namespace Sys2Proof.Machine

/-- RESET (R210): no event, the logs kept. -/
def execReset (s : State) : Result := .next (resetBlock s)

/-- RESERVED_OP0 (R66): no meaning, refused. -/
def execReservedOp0 (_rest : BitVec 28) (_s : State) : Result := .refused .reservedEncoding

/-- RESERVED_OP7 (R66): no meaning, refused. -/
def execReservedOp7 (_rest : BitVec 28) (_s : State) : Result := .refused .reservedEncoding

/-- RESERVED_OP8_F (R66): no meaning, refused. -/
def execReservedOp8F (_rest : BitVec 31) (_s : State) : Result := .refused .reservedEncoding

end Sys2Proof.Machine
end

