-- ==== Sys2Proof/Machine/Dispatch.lean ====
section
/-! DEFINITION. One arm for each row of spec/opcode_table.json: one direct call of its meaning. -/

namespace Sys2Proof.Machine

def exec (i : Instr) (s : State) : Host.Outcome State Fault Refusal :=
  match i with
  | .send flags did cid payload => Sys2Proof.Machine.execSend flags did cid payload s
  | .setMask1 m => Sys2Proof.Machine.execSetMask1 m s
  | .setMask2 m => Sys2Proof.Machine.execSetMask2 m s
  | .rxByte b => Sys2Proof.Machine.execRxByte b s
  | .tick => Sys2Proof.Machine.execTick s
  | .reset => Sys2Proof.Machine.execReset s
  | .reservedOp0 rest => Sys2Proof.Machine.execReservedOp0 rest s
  | .reservedOp7 rest => Sys2Proof.Machine.execReservedOp7 rest s
  | .reservedOp8F rest => Sys2Proof.Machine.execReservedOp8F rest s
  | .rxIdleStart => Sys2Proof.Machine.execRxIdleStart s
  | .rxIdleOther b => Sys2Proof.Machine.execRxIdleOther b s
  | .rxInStart => Sys2Proof.Machine.execRxInStart s
  | .rxInEnd => Sys2Proof.Machine.execRxInEnd s
  | .rxInEscape => Sys2Proof.Machine.execRxInEscape s
  | .rxInData b => Sys2Proof.Machine.execRxInData b s
  | .rxEscAny b => Sys2Proof.Machine.execRxEscAny b s
  | .pktTelemetry h data chk => Sys2Proof.Machine.execPktTelemetry h data chk s
  | .pktCollision h data chk => Sys2Proof.Machine.execPktCollision h data chk s
  | .pktSleepWarning h data chk => Sys2Proof.Machine.execPktSleepWarning h data chk s
  | .pktSleeping h data chk => Sys2Proof.Machine.execPktSleeping h data chk s
  | .pktSync h rc data chk => Sys2Proof.Machine.execPktSync h rc data chk s

end Sys2Proof.Machine
end

