-- ==== Sys2Proof/Machine/Fetch.lean ====
section
/-! DEFINITION. The serialiser (00_scope.md R4, R5): the next input event, taken from the port that the next of the
serialiser's choices names. -/

namespace Sys2Proof.Machine

/-- What the serialiser finds. -/
inductive Fetched where
  /-- No choice is left: the run is over (R221). -/
  | ended
  /-- The chosen port offers no input that can take a step: it holds no whole event (log 6, log 21), or a held SEND stands
  at its head (R124, log 5). The turn passes to the next choice. -/
  | waits (s : State)
  /-- A must-be-zero bit is set (R66). -/
  | reserved
  /-- The event, and the state with the event and the choice taken. -/
  | run (i : Instr) (s : State)
deriving DecidableEq, Repr

/-- Take the serialiser's next choice. An event runs as decoded, whatever port it stands at (log 10). -/
def fetch (s : State) : Fetched :=
  match s.sched with
  | [] => .ended
  | p :: ports =>
      match decode (portBytes s p) with
      | .incomplete => .waits (setSched s ports)
      | .reserved => .reserved
      | .event i rest =>
          if holdsSend i s then .waits (setSched s ports) else .run i (setPortBytes (setSched s ports) p rest)

/-- The port whose events bear the operation code of header word `w` (R60); a reserved one is put at the host
port. -/
def portOfWord (w : Word) : Port :=
  match (w.extractLsb' 28 4).toNat with
  | 4 => .transport
  | 5 => .tick
  | 6 => .reset
  | _ => .host

/-- The event's bytes at the front of port `p`, and `p` the serialiser's next choice. -/
def placeEvent (s : State) (p : Port) (bytes : List Byte) : State :=
  setSched (setPortBytes s p (bytes ++ portBytes s p)) (p :: s.sched)

/-- An RX_BYTE event for `b` (R63) at the transport port, to be taken next. -/
def placeRxByte (s : State) (b : Byte) : State := placeEvent s .transport (bytesOfWord (0x400000#24 ++ b))

/-- A word of the opcode table placed so that the next step runs it: an event at its port; for an RX_DECODE key, its
RX_STATE and its byte; for a PACKET_CLASS key, the packet collected and its END (log 7). -/
def placeTableWord (s : State) (nbits w : Nat) : State :=
  if nbits = 16 then
    match rxStateOfCode ((BitVec.ofNat 10 w).extractLsb' 8 2) with
    | some r => placeRxByte (setRxState s r) ((BitVec.ofNat 10 w).extractLsb' 0 8)
    | none => s
  else if nbits = 24 then placeRxByte (setRxState { s with rxBuf := tablePacketBytes w } .inPacket) endByte
  else placeEvent s (portOfWord (BitVec.ofNat 32 w)) (tableEventBytes w)

end Sys2Proof.Machine
end

