-- ==== Sys2Proof/Machine/Step.lean ====
section
/-! DEFINITION. One step of the block (00_scope.md R4): the serialiser's next choice is fetched and run to
completion. -/

namespace Sys2Proof.Machine

/-- One atomic step (R4). -/
def step (s : State) : Host.Outcome State Fault Refusal :=
  match fetch s with
  | .ended => .fault .noInput
  | .waits t => .next t
  | .reserved => .refused .reservedEncoding
  | .run i t => exec i t

/-- `s` with a word of the opcode table where `step` takes its next input (log 7). -/
def State.withFetchWord (s : State) (nbits w : Nat) : State := placeTableWord s nbits w

end Sys2Proof.Machine
end

