-- ==== Sys2Proof/Machine/Script.lean ====
section
/-! DEFINITION. The event-script notation (30_encoding.md R77): one line stands for one input, or for a run of equal
or consecutive ones. -/

namespace Sys2Proof.Machine

/-- A line of a script (R77). -/
inductive ScriptLine where
  | send (flags did cid : Byte) (payload : List Byte)
  | setMask1 (m : Word)
  | setMask2 (m : Word)
  /-- `RX b0 b1 …`. -/
  | rx (bytes : List Byte)
  /-- `TICK ×k`; a plain `TICK` is `k = 1`. -/
  | tick (times : Nat)
  | reset
deriving DecidableEq, Repr

/-- The inputs that a line stands for, in order (R77, R63). -/
def scriptLineInputs : ScriptLine → List Instr
  | .send flags did cid payload => [.send flags did cid payload]
  | .setMask1 m => [.setMask1 m]
  | .setMask2 m => [.setMask2 m]
  | .rx bytes => bytes.map .rxByte
  | .tick times => List.replicate times .tick
  | .reset => [.reset]

end Sys2Proof.Machine
end

