-- ==== Sys2Proof/Safety.lean ====
section
/-! DEFINITION. The terms in which claims about the block are made: the invariant of a good state, runs of one kind
of input, and what a step has reported. -/

namespace Sys2Proof.Machine

/-- A good state: what the spec says of every state that a run reaches. -/
structure State.Inv (s : State) : Prop where
  /-- In IDLE the receive buffer is empty (10_state.md R22). -/
  idle_empty : s.rxState = .idle → s.rxBuf = []
  /-- The receive buffer is within its capacity (R20, R45). -/
  buffer_fits : s.rxBuf.length ≤ s.cfg.rxBufMax
  /-- SEQ_CTR holds 0 to 254 (R23). -/
  seq_range : s.seqCtr.toNat ≤ 254
  /-- A pending slot has 1 to TIMEOUT_TICKS ticks left (R26, R120). -/
  timer_range : ∀ q : Byte, isPending s q = true →
    1 ≤ (slotAt s q).timer ∧ (slotAt s q).timer ≤ s.cfg.timeoutTicks

/-- The inputs of a run, one after the other, up to the first that stops (70_reset_and_hazards.md R221). R221 does
not say whether a SEND that holds under BLOCK may stand in the sequence: here such a SEND passes with no effect and
is not taken up again, and the inputs behind it go on, where `step` keeps it at its port (DESIGN CHOICE, log 22). -/
def runInputs : List Instr → State → Result
  | [], s => .next s
  | i :: inputs, s =>
      match exec i s with
      | .next t => runInputs inputs t
      | .fault r => .fault r
      | .refused r => .refused r

/-- The lines of a script, one after the other (30_encoding.md R77), a held SEND passed over as in `runInputs`
(DESIGN CHOICE, log 22). -/
def runScript (lines : List ScriptLine) (s : State) : Result := runInputs (lines.flatMap scriptLineInputs) s

/-- The observation of a run that ends in `s`, beside the final state itself (R221): the two logs. -/
def observation (s : State) : List Byte × List (List Byte) := (s.txLog, s.evLog)

/-- The bytes `l` received one by one (30_encoding.md R63): the state that one delivery leaves, from which the next
goes on (40_byte_codec.md R90). The bytes decoded over it are those of `unescape`. -/
def receive (l : List Byte) (s : State) : Result := runScript [.rx l] s

/-- `k` TICKs one after the other. -/
def ticks (k : Nat) (s : State) : Result := runScript [.tick k] s

/-- The records that a run from `s` to `t` has added to EV_LOG. -/
def newRecords (s t : State) : List (List Byte) := t.evLog.drop s.evLog.length

/-- The record completes a request on number `q`: it is its RESPONSE or its TIMEOUT (30_encoding.md R73). -/
def completes (q : Byte) (record : List Byte) : Bool := record.take 2 == [0x03, q] || record.take 2 == [0x04, q]

/-- The header word of an input event with no meaning (30_encoding.md R61 to R66): a reserved OP, or a
must-be-zero bit that is set. -/
abbrev headerReserved (w : Word) : Prop :=
  let op := (w.extractLsb' 28 4).toNat
  op = 0 ∨ 7 ≤ op ∨ (op = 1 ∧ w.extractLsb' 24 4 ≠ 0) ∨ (op = 2 ∧ w.extractLsb' 0 28 ≠ 0)
    ∨ (op = 3 ∧ w.extractLsb' 0 28 ≠ 0) ∨ (op = 4 ∧ w.extractLsb' 8 20 ≠ 0)
    ∨ (op = 5 ∧ w.extractLsb' 0 28 ≠ 0) ∨ (op = 6 ∧ w.extractLsb' 0 28 ≠ 0)

/-- The `warn0` of a packet with these bytes before its checksum byte (41_framer.md R105, R106): 0 where
the content and the checksum add to 0xFF mod 256 (R101), else 1. -/
def warnOf (content : List Byte) (chk : Byte) : Byte := if sum8 (content ++ [chk]) = 0xFF then 0 else 1

/-- The number of fields a mask selects (44_telemetry.md R161, R165). -/
def popcount (m : Word) : Nat := (List.range 32).countP fun b => m.getLsbD b

end Sys2Proof.Machine
end

