-- ==== Sys2Proof/Certificates/Slice0/Obligations.lean ====
section
/-! DEFINITION. The statements for the provers, each from the numbered rules of spec/. -/

open Sys2Proof Sys2Proof.Machine

/-! ### Encodings -/

/-- Words written out from R61 to R66, each in big-endian bytes (the model's reading of R9, log 2), decode to the
events they stand for (the vectors V-ENC of 95_test_vectors.md), and so do two RX_DECODE keys of R67. -/
def Obligations.WrittenWordsDecode : Prop :=
  decode [0x10, 0x0A, 0x13, 0x01, 0x00, 0x00, 0x00, 0x01, 0xD8] = .event (.send 0x0A 0x13 0x01 [0xD8]) []
    ∧ decode [0x20, 0x00, 0x00, 0x00, 0x00, 0x07, 0x00, 0x00] = .event (.setMask1 0x00070000) []
    ∧ decode [0x30, 0x00, 0x00, 0x00, 0x00, 0x00, 0x00, 0x01] = .event (.setMask2 0x00000001) []
    ∧ decode [0x40, 0x00, 0x00, 0x8D] = .event (.rxByte 0x8D) []
    ∧ decode [0x50, 0x00, 0x00, 0x00] = .event .tick []
    ∧ decode [0x60, 0x00, 0x00, 0x00] = .event .reset []
    ∧ decode [0xF0, 0x00, 0x00, 0x00] = .event (.reservedOp8F 0x70000000) []
    ∧ decode [0x40, 0x00, 0x01, 0x00] = .reserved
    ∧ decodeRxKey 0x1D8 = some .inEnd
    ∧ decodeRxKey 0x28D = some (.escAny 0x8D)

/-- DECODE AND ENCODE AGREE, for every well-formed instruction of every format and every operand: its code decodes
to it; and an event's bytes decode to it whatever bytes stand behind them (R60 to R69). The bytes of an event's words are big-endian (log 2). -/
def Obligations.DecodeOfEncode : Prop :=
  ∀ (c : Config) (i : Instr), i.WellFormed c →
    decodeCode c (encode i) = some (i, [])
      ∧ ∀ bytes rest, encode i = .event bytes → decode (bytes ++ rest) = .event i rest

/-- The other direction: an event that decodes has one encoding, and the decoder drops no bit of it. -/
def Obligations.EncodeOfDecode : Prop :=
  ∀ (bytes rest : List Byte) (i : Instr), decode bytes = .event i rest →
    (∀ c, i.WellFormed c) ∧ ∃ front, encode i = .event front ∧ bytes = front ++ rest

/-- R66: a reserved OP, or a must-be-zero bit that is set in the header or in SEND's operand word, is refused
with RESERVED_ENCODING; a SEND beyond MAX_TX_PAYLOAD is refused with PAYLOAD_TOO_LONG. The rows of the reserved
OPs are refused in every state. The model's own, and no rule's: words lie at a port in big-endian bytes (log 2), at
whatever port they stand (log 10); a SEND that is too long is refused where its slot is busy too (log 18); a
must-be-zero bit is refused before what follows it has come, the bound on LEN once all LEN bytes are there
(log 21). -/
def Obligations.ReservedInputsRefused : Prop :=
  (∀ (s : State) (p : Port) (ports : List Port) (a b c d : Byte) (rest : List Byte),
    s.sched = p :: ports → portBytes s p = a :: b :: c :: d :: rest →
    (headerReserved (a ++ b ++ c ++ d) → step s = .refused .reservedEncoding)
      ∧ (∀ e f g h rest', a = 0x10 → rest = e :: f :: g :: h :: rest' → (e ++ f : BitVec 16) ≠ 0 →
          step s = .refused .reservedEncoding)
      ∧ (∀ g h rest', a = 0x10 → rest = 0 :: 0 :: g :: h :: rest' → (g ++ h : BitVec 16).toNat ≤ rest'.length →
          s.cfg.maxTxPayload.val < (g ++ h : BitVec 16).toNat → step s = .refused .payloadTooLong))
    ∧ (∀ (s : State) (r : BitVec 28), exec (.reservedOp0 r) s = .refused .reservedEncoding)
    ∧ (∀ (s : State) (r : BitVec 28), exec (.reservedOp7 r) s = .refused .reservedEncoding)
    ∧ (∀ (s : State) (r : BitVec 31), exec (.reservedOp8F r) s = .refused .reservedEncoding)

/-! ### The step -/

/-- A STEP RUNS THE DECODED INSTRUCTION: where the port that the serialiser takes next holds a whole event, and no
held SEND stands there, the step is the event's instruction, run in the state with the event and the choice taken
(R4, R5). The model's own, and no rule's: the ports and the choices stand in the state (log 1), the words in
big-endian bytes (log 2), and an event at another agent's port runs as decoded (log 10). -/
def Obligations.StepRunsDecodedEvent : Prop :=
  ∀ (s : State) (p : Port) (ports : List Port) (i : Instr) (rest : List Byte),
    s.sched = p :: ports → decode (portBytes s p) = .event i rest → holdsSend i s = false →
    step s = exec i (setPortBytes { s with sched := ports } p rest)

/-- The model's choice, log 6 (no rule of the spec): with no choice of the serialiser left the run is over, and a
turn given to a port that holds no whole event passes, if what it holds shows no must-be-zero bit that is set
(log 21). -/
def Obligations.EmptyTurnsPass : Prop :=
  (∀ s : State, s.sched = [] → step s = .fault .noInput)
    ∧ ∀ (s : State) (p : Port) (ports : List Port), s.sched = p :: ports → decode (portBytes s p) = .incomplete →
        step s = .next { s with sched := ports }

/-- THE INVARIANT THAT EVERY STEP KEEPS (R22, R23, R26, R45): the buffer empty in IDLE and within its capacity,
SEQ_CTR at most 254, every pending slot's timer from 1 to TIMEOUT_TICKS. -/
def Obligations.StepKeepsInvariant : Prop :=
  ∀ s t : State, s.Inv → step s = .next t → t.Inv

/-- The invariant holds at power-on, under every configuration (R26, R34). -/
def Obligations.PowerOnMeetsInvariant : Prop :=
  (∀ c : Config, (State.powerOn c).Inv) ∧ State.reset.Inv

/-- The logs only grow and the configuration never changes (R29, R30, R52), whatever the step. -/
def Obligations.StepExtendsLogsKeepsConfig : Prop :=
  ∀ s t : State, step s = .next t → s.txLog <+: t.txLog ∧ s.evLog <+: t.evLog ∧ t.cfg = s.cfg

/-- R46: a step hands over no byte, or one whole frame bearing SEQ_CTR, so no frame's bytes are parted. -/
def Obligations.StepTransmitsWholeFrames : Prop :=
  ∀ s t : State, step s = .next t →
    t.txLog = s.txLog ∨ ∃ flags did cid payload, t.txLog = s.txLog ++ frame flags did cid s.seqCtr payload

/-- The access table of R33, in what each input leaves unchanged; with R29 and R30 for the two logs. Every input
leaves the ports and the configuration as they are. -/
def Obligations.InputsWriteOnlyTheirFields : Prop :=
  ∀ (i : Instr) (s t : State), exec i s = .next t →
    (t.cfg = s.cfg ∧ t.hostPort = s.hostPort ∧ t.rxPort = s.rxPort ∧ t.tickPort = s.tickPort
      ∧ t.resetPort = s.resetPort ∧ t.sched = s.sched)
    ∧ ((∃ flags did cid payload, i = .send flags did cid payload) →
        t.rxState = s.rxState ∧ t.rxBuf = s.rxBuf ∧ t.mask1 = s.mask1 ∧ t.mask2 = s.mask2)
    ∧ ((∃ m, i = .setMask1 m) → t = { s with mask1 := t.mask1 })
    ∧ ((∃ m, i = .setMask2 m) → t = { s with mask2 := t.mask2 })
    ∧ ((∃ b, i = .rxByte b) →
        t.seqCtr = s.seqCtr ∧ t.mask1 = s.mask1 ∧ t.mask2 = s.mask2 ∧ t.txLog = s.txLog
          ∧ ∀ q, (slotAt t q).timer = (slotAt s q).timer)
    ∧ (i = .tick → t = { s with slots := t.slots, evLog := t.evLog })
    ∧ (i = .reset → t.txLog = s.txLog ∧ t.evLog = s.evLog)

/-- The events of one step (R186): at most one for a received byte, exactly one for a packet class and for a SEND
that takes a step, none for the masks and for RESET. -/
def Obligations.EventsPerInput : Prop :=
  ∀ (i : Instr) (s t : State), exec i s = .next t →
    ∃ new, t.evLog = s.evLog ++ new
      ∧ ((∃ b, i = .rxByte b) → new.length ≤ 1)
      ∧ ((∃ flags did cid payload, i = .send flags did cid payload) → holdsSend i s = false → new.length = 1)
      ∧ ((∃ p : Packet, i = p.toInstr) → new.length = 1)
      ∧ ((i = .reset ∨ (∃ m, i = .setMask1 m) ∨ ∃ m, i = .setMask2 m) → new = [])

/-! ### The codec -/

/-- R57: an escaped byte is sent as `b & 0x77`, the byte after ESCAPE decodes to `x | 0x88`, the two give each marker
back, and an escaped form is no marker. -/
def Obligations.EscapeTransformIdentity : Prop :=
  escEnc 0x8D = [0xAB, 0x05] ∧ escEnc 0xD8 = [0xAB, 0x50] ∧ escEnc 0xAB = [0xAB, 0x23]
    ∧ (∀ x : Byte, x = 0x8D ∨ x = 0xD8 ∨ x = 0xAB →
        escEnc x = [0xAB, x &&& 0x77] ∧ (x &&& 0x77) ||| 0x88 = x ∧ isMarker (x &&& 0x77) = false)
    ∧ ∀ (s : State) (x : Byte), s.rxState = .escPending → s.rxBuf.length < s.cfg.rxBufMax →
        exec (.rxByte x) s = .next { s with rxBuf := s.rxBuf ++ [x ||| 0x88], rxState := .inPacket }

/-- R80: a marker becomes a pair, every other byte stands for itself. -/
def Obligations.EscEncOfByte : Prop :=
  ∀ b : Byte, ((b = 0x8D ∨ b = 0xD8 ∨ b = 0xAB) → escEnc b = [0xAB, b &&& 0x77])
    ∧ (¬ (b = 0x8D ∨ b = 0xD8 ∨ b = 0xAB) → escEnc b = [b])

/-- R81: escape works byte by byte, grows by the number of markers, emits no START and no END, and emits ESCAPE
only as the first byte of a pair. -/
def Obligations.EscapeOfList : Prop :=
  escape [] = []
    ∧ (∀ b l, escape (b :: l) = escEnc b ++ escape l)
    ∧ ∀ l : List Byte,
        (escape l).length = l.length + l.countP (fun b => b == 0x8D || b == 0xD8 || b == 0xAB)
        ∧ (0x8D : Byte) ∉ escape l ∧ (0xD8 : Byte) ∉ escape l
        ∧ ∀ pre post, escape l = pre ++ (0xAB : Byte) :: post →
            ∃ x post', post = x :: post' ∧ (x = 0x05 ∨ x = 0x50 ∨ x = 0x23)

/-- R91, the codec round trip: in IN_PACKET with an empty buffer, the escape of a list that fits leaves exactly that
list in RX_BUF, and nothing else changed. -/
def Obligations.CodecRoundTrip : Prop :=
  ∀ (s : State) (l : List Byte), s.rxState = .inPacket → s.rxBuf = [] → l.length ≤ s.cfg.rxBufMax →
    receive (escape l) s = .next { s with rxBuf := l }

/-- R92: the decoder takes every escape pair, canonical or not, and never reads its second byte as a marker. -/
def Obligations.EveryEscapePairAccepted : Prop :=
  ∀ (s : State) (x : Byte), s.rxState = .inPacket → s.rxBuf.length < s.cfg.rxBufMax →
    receive [0xAB, x] s = .next { s with rxBuf := s.rxBuf ++ [x ||| 0x88] }

/-- The decode table of R67: which row a received byte is; RX_BYTE runs that row (R82), and always takes a step. -/
def Obligations.ReceivedByteRunsItsRow : Prop :=
  ∀ (s : State) (b : Byte),
    (s.rxState = .idle → b = 0x8D → exec (.rxByte b) s = exec .rxIdleStart s)
      ∧ (s.rxState = .idle → b ≠ 0x8D → exec (.rxByte b) s = exec (.rxIdleOther b) s)
      ∧ (s.rxState = .inPacket → b = 0x8D → exec (.rxByte b) s = exec .rxInStart s)
      ∧ (s.rxState = .inPacket → b = 0xD8 → exec (.rxByte b) s = exec .rxInEnd s)
      ∧ (s.rxState = .inPacket → b = 0xAB → exec (.rxByte b) s = exec .rxInEscape s)
      ∧ (s.rxState = .inPacket → b ≠ 0x8D → b ≠ 0xD8 → b ≠ 0xAB → exec (.rxByte b) s = exec (.rxInData b) s)
      ∧ (s.rxState = .escPending → exec (.rxByte b) s = exec (.rxEscAny b) s)
      ∧ ∃ t, exec (.rxByte b) s = .next t

/-- R83, for the received byte and for its row. -/
def Obligations.IdleStartOpensPacket : Prop :=
  ∀ s : State, s.rxState = .idle →
    exec .rxIdleStart s = .next { s with rxBuf := [], rxState := .inPacket }
      ∧ exec (.rxByte 0x8D) s = .next { s with rxBuf := [], rxState := .inPacket }

/-- R84, for the received byte and for its row. -/
def Obligations.IdleOtherDiscarded : Prop :=
  ∀ (s : State) (b : Byte), s.rxState = .idle → b ≠ 0x8D →
    exec (.rxIdleOther b) s = .next s ∧ exec (.rxByte b) s = .next s

/-- R85, for the received byte and for its row. -/
def Obligations.StartInPacketTruncates : Prop :=
  ∀ s : State, s.rxState = .inPacket →
    let t := { s with rxBuf := [], evLog := s.evLog ++ (if s.rxBuf = [] then [] else [[0x0B, 0x02]]) }
    exec .rxInStart s = .next t ∧ exec (.rxByte 0x8D) s = .next t

/-- R86: the packet is closed, with the decoder in IDLE and the buffer empty. SHORT packets are MALFORMED, every
other packet is the instruction of its class, whatever its checksum byte. Exactly one event is emitted. -/
def Obligations.EndClosesPacket : Prop :=
  ∀ s : State, s.rxState = .inPacket →
    (s.rxBuf.length < 5 →
      exec .rxInEnd s = .next { s with rxState := .idle, rxBuf := [], evLog := s.evLog ++ [[0x0B, 0x01]] })
    ∧ (∀ (h : Header) (chk : Byte), s.rxBuf = h.bytes ++ [chk] → classify s.cfg h.did h.cid h.seq = .sync →
        exec .rxInEnd s = .next { s with rxState := .idle, rxBuf := [], evLog := s.evLog ++ [[0x0B, 0x01]] })
    ∧ (∀ (h : Header) (rc : Byte) (data : List Byte) (chk : Byte), s.rxBuf = h.bytes ++ rc :: data ++ [chk] → classify s.cfg h.did h.cid h.seq = .sync →
        exec .rxInEnd s = exec (.pktSync h rc data chk) { s with rxState := .idle, rxBuf := [] })
    ∧ (∀ (h : Header) (data : List Byte) (chk : Byte), s.rxBuf = h.bytes ++ data ++ [chk] →
        (classify s.cfg h.did h.cid h.seq = .telemetry →
          exec .rxInEnd s = exec (.pktTelemetry h data chk) { s with rxState := .idle, rxBuf := [] })
        ∧ (classify s.cfg h.did h.cid h.seq = .collision →
          exec .rxInEnd s = exec (.pktCollision h data chk) { s with rxState := .idle, rxBuf := [] })
        ∧ (classify s.cfg h.did h.cid h.seq = .sleepWarning →
          exec .rxInEnd s = exec (.pktSleepWarning h data chk) { s with rxState := .idle, rxBuf := [] })
        ∧ (classify s.cfg h.did h.cid h.seq = .sleeping →
          exec .rxInEnd s = exec (.pktSleeping h data chk) { s with rxState := .idle, rxBuf := [] }))
    ∧ exec (.rxByte 0xD8) s = exec .rxInEnd s
    ∧ ∃ t record, exec .rxInEnd s = .next t ∧ t.rxState = .idle ∧ t.rxBuf = [] ∧ t.evLog = s.evLog ++ [record]

/-- R87, for the received byte and for its row. -/
def Obligations.EscapeInPacketArms : Prop :=
  ∀ s : State, s.rxState = .inPacket →
    exec .rxInEscape s = .next { s with rxState := .escPending }
      ∧ exec (.rxByte 0xAB) s = .next { s with rxState := .escPending }

/-- R88, for the received byte and for its row. -/
def Obligations.DataByteStored : Prop :=
  ∀ (s : State) (b : Byte), s.rxState = .inPacket → b ≠ 0x8D → b ≠ 0xD8 → b ≠ 0xAB →
    let t := if s.rxBuf.length < s.cfg.rxBufMax then { s with rxBuf := s.rxBuf ++ [b] }
      else { s with rxBuf := [], rxState := .idle, evLog := s.evLog ++ [[0x0B, 0x03]] }
    exec (.rxInData b) s = .next t ∧ exec (.rxByte b) s = .next t

/-- R89, for the received byte and for its row. -/
def Obligations.EscapedByteStored : Prop :=
  ∀ (s : State) (b : Byte), s.rxState = .escPending →
    let t := if s.rxBuf.length < s.cfg.rxBufMax then { s with rxBuf := s.rxBuf ++ [b ||| 0x88], rxState := .inPacket }
      else { s with rxBuf := [], rxState := .idle, evLog := s.evLog ++ [[0x0B, 0x03]] }
    exec (.rxEscAny b) s = .next t ∧ exec (.rxByte b) s = .next t

/-! ### The framer -/

/-- R100: the checksum is 255 less the exact sum of the content's bytes mod 256. -/
def Obligations.ChecksumOfContent : Prop :=
  (∀ c : List Byte, (checksum c).toNat = 255 - (c.map BitVec.toNat).sum % 256)
    ∧ checksum [] = 0xFF ∧ checksum [0xFF] = 0x00 ∧ checksum [0xFF, 0x01] = 0xFF
    ∧ checksum [0x0A, 0x13, 0x0D, 0x00] = 0xD5

/-- R101: content and checksum add to 0xFF, a check passes exactly then, one changed byte always fails it, and
changes that cancel mod 256 are not detected. -/
def Obligations.ChecksumLaw : Prop :=
  (∀ c, sum8 (c ++ [checksum c]) = 0xFF)
    ∧ (∀ c k, checksum c = k ↔ sum8 (c ++ [k]) = 0xFF)
    ∧ (∀ pre post (b b' : Byte), b ≠ b' → checksum (pre ++ b :: post) ≠ checksum (pre ++ b' :: post))
    ∧ ∀ c c', sum8 c = sum8 c' → checksum c = checksum c'

/-- R102 and R103: START, the escaped content and checksum, END; and the worked frames of R102 and R103. -/
def Obligations.FrameLayout : Prop :=
  (∀ (flags did cid seq : Byte) (p : List Byte),
    frame flags did cid seq p =
      [0x8D] ++ escape ([flags, did, cid, seq] ++ p ++ [0xFF - sum8 ([flags, did, cid, seq] ++ p)]) ++ [0xD8])
    ∧ frame 0x0A 0x13 0x0D 0x00 [] = [0x8D, 0x0A, 0x13, 0x0D, 0x00, 0xD5, 0xD8]
    ∧ frame 0x0A 0x13 0x02 0x08 [] = [0x8D, 0x0A, 0x13, 0x02, 0x08, 0xAB, 0x50, 0xD8]

/-- The bounds of R76 on an outbound frame, and the lower one met where nothing is a marker. -/
def Obligations.FrameLengthBounds : Prop :=
  ∀ (flags did cid seq : Byte) (p : List Byte),
    7 + p.length ≤ (frame flags did cid seq p).length
      ∧ (frame flags did cid seq p).length ≤ 2 + 2 * (5 + p.length)
      ∧ ((∀ b ∈ frameBody flags did cid seq p, isMarker b = false) →
          (frame flags did cid seq p).length = 7 + p.length)

/-- R104, first part: a frame has one START, its first byte, and one END, its last. -/
def Obligations.FrameHasOneStartOneEnd : Prop :=
  ∀ (flags did cid seq : Byte) (p : List Byte),
    (frame flags did cid seq p).count 0x8D = 1 ∧ (frame flags did cid seq p).head? = some 0x8D
      ∧ (frame flags did cid seq p).count 0xD8 = 1 ∧ (frame flags did cid seq p).getLast? = some 0xD8

/-- R104 and R110, the framing round trip: in IDLE or IN_PACKET, a frame whose body fits the buffer opens a packet at
its START (a partial packet is truncated), and closes exactly the raw packet of the five inputs, with a checksum
that holds. -/
def Obligations.FrameRoundTrip : Prop :=
  ∀ (s : State) (flags did cid seq : Byte) (p : List Byte),
    s.rxState ≠ .escPending → p.length + 5 ≤ s.cfg.rxBufMax →
    let packet := [flags, did, cid, seq] ++ p ++ [checksum ([flags, did, cid, seq] ++ p)]
    receive (frame flags did cid seq p) s =
        closePacket packet
          { s with
            rxState := .idle
            rxBuf := []
            evLog := s.evLog ++ (if s.rxState = .inPacket ∧ s.rxBuf ≠ [] then [[0x0B, 0x02]] else []) }
      ∧ sum8 packet = 0xFF

/-- R107: a synchronous response to a pending request is delivered and resolves it with a wrong checksum just as
with a right one; only `warn[0]` differs. -/
def Obligations.WrongChecksumStillResolves : Prop :=
  ∀ (s : State) (h : Header) (rc : Byte) (data : List Byte) (chk : Byte) (hq : h.seq.toNat < 255),
    s.rxState = .inPacket → s.rxBuf = h.bytes ++ rc :: data ++ [chk] →
    classify s.cfg h.did h.cid h.seq = .sync → isPending s h.seq = true →
    chk ≠ checksum (h.bytes ++ rc :: data) →
    exec .rxInEnd s =
      .next { s with
        rxState := .idle
        rxBuf := []
        slots := s.slots.set h.seq.toNat ⟨false, (slotAt s h.seq).timer⟩
        evLog := s.evLog ++ [[0x03, h.seq, rc, if rc = 0 then 0x01 else 0x03, BitVec.ofNat 8 (data.length / 256),
          BitVec.ofNat 8 data.length] ++ data] }

/-! ### The dispatcher -/

/-- CLASSIFY of R141: the first condition that holds, in the order of the table of R68. -/
def Obligations.ClassifyByPriority : Prop :=
  ∀ (c : Config) (did cid seq : Byte),
    let tel := did = c.telemId.did ∧ cid = c.telemId.cid ∧ seq = 0xFF
    let col := did = c.collisionId.did ∧ cid = c.collisionId.cid
    let slw := did = c.sleepWarnId.did ∧ cid = c.sleepWarnId.cid ∧ seq = 0xFF
    let slp := did = c.sleepingId.did ∧ cid = c.sleepingId.cid ∧ seq = 0xFF
    (tel → classify c did cid seq = .telemetry)
      ∧ (¬ tel → col → classify c did cid seq = .collision)
      ∧ (¬ tel → ¬ col → slw → classify c did cid seq = .sleepWarning)
      ∧ (¬ tel → ¬ col → ¬ slw → slp → classify c did cid seq = .sleeping)
      ∧ (¬ tel → ¬ col → ¬ slw → ¬ slp → classify c did cid seq = .sync)

/-- R166 with the layout of R71: a sample of the expected length is one TELEMETRY record. Entry k of group 1 is its
bit and data[4k .. 4k+4), entry j of group 2 its bit and data[4·N1+4j .. 4·N1+4j+4). Nothing else changes. -/
def Obligations.TelemetrySampleDelivered : Prop :=
  ∀ (s : State) (h : Header) (data : List Byte) (chk : Byte),
    data.length = 4 * ((activeBits s.mask1).length + (activeBits s.mask2).length) →
    let n1 := (activeBits s.mask1).length
    exec (.pktTelemetry h data chk) s =
      .next { s with
        evLog := s.evLog ++ [[0x05, warnOf (h.bytes ++ data) chk,
            BitVec.ofNat 8 (n1 + (activeBits s.mask2).length)]
          ++ ((activeBits s.mask1).zipIdx.flatMap fun (b, k) =>
              [0x01, BitVec.ofNat 8 b] ++ (data.drop (4 * k)).take 4)
          ++ ((activeBits s.mask2).zipIdx.flatMap fun (b, j) =>
              [0x02, BitVec.ofNat 8 b] ++ (data.drop (4 * n1 + 4 * j)).take 4)] }

/-- R165 and R167: the expected length is four bytes for each field the masks select, at most 256; any other length
is reported as TELEMETRY_ERROR with both lengths, and nothing else changes. -/
def Obligations.TelemetryLengthMismatchReported : Prop :=
  ∀ (s : State) (h : Header) (data : List Byte) (chk : Byte),
    let expected := 4 * (popcount s.mask1 + popcount s.mask2)
    expected ≤ 256
      ∧ (data.length ≠ expected →
          exec (.pktTelemetry h data chk) s =
            .next { s with
              evLog := s.evLog ++ [[0x09, warnOf (h.bytes ++ data) chk, BitVec.ofNat 8 (expected / 256),
                BitVec.ofNat 8 expected, BitVec.ofNat 8 (data.length / 256), BitVec.ofNat 8 data.length]] })
      ∧ (data.length = expected → ∃ t record, exec (.pktTelemetry h data chk) s = .next t
          ∧ t.evLog = s.evLog ++ [0x05 :: record])

/-- R143 and R144: with eleven data bytes or more, one COLLISION record of R73: the eleven fixed bytes in their order,
the number of further bytes, and those bytes raw; with fewer, MALFORMED(COLLISION_SHORT). Nothing else changes. -/
def Obligations.CollisionDecoded : Prop :=
  (∀ (s : State) (h : Header) (x1 x0 y1 y0 z1 z0 axis m1 m0 n1 n0 : Byte) (extra : List Byte) (chk : Byte),
    let data := [x1, x0, y1, y0, z1, z0, axis, m1, m0, n1, n0] ++ extra
    exec (.pktCollision h data chk) s =
      .next { s with
        evLog := s.evLog ++ [[0x06, warnOf (h.bytes ++ data) chk, x1, x0, y1, y0, z1, z0, axis, m1, m0, n1, n0,
          BitVec.ofNat 8 (extra.length / 256), BitVec.ofNat 8 extra.length] ++ extra] })
    ∧ ∀ (s : State) (h : Header) (data : List Byte) (chk : Byte), data.length < 11 →
        exec (.pktCollision h data chk) s = .next { s with evLog := s.evLog ++ [[0x0B, 0x04]] }

/-- R145 and R146: one record bearing the warning byte; the data is ignored, nothing is sent and no request is
affected. -/
def Obligations.SleepEventsReported : Prop :=
  ∀ (s : State) (h : Header) (data : List Byte) (chk : Byte),
    exec (.pktSleepWarning h data chk) s =
        .next { s with evLog := s.evLog ++ [[0x07, warnOf (h.bytes ++ data) chk]] }
      ∧ exec (.pktSleeping h data chk) s =
        .next { s with evLog := s.evLog ++ [[0x08, warnOf (h.bytes ++ data) chk]] }

/-- R125, R126 and R130: a response to a pending number frees its slot, keeps the slot's timer, and is delivered by
one RESPONSE; any other changes no state and is reported as UNMATCHED. Number 0xFF is always unmatched. -/
def Obligations.ResponseResolvedOrUnmatched : Prop :=
  ∀ (s : State) (h : Header) (rc : Byte) (data : List Byte) (chk : Byte),
    let warn0 := warnOf (h.bytes ++ rc :: data) chk
    (∀ hq : h.seq.toNat < 255, (s.slots[h.seq.toNat]).valid = true →
      exec (.pktSync h rc data chk) s =
        .next { s with
          slots := s.slots.set h.seq.toNat ⟨false, (s.slots[h.seq.toNat]).timer⟩
          evLog := s.evLog ++ [[0x03, h.seq, rc, warn0 ||| (if rc = 0 then 0x00 else 0x02),
            BitVec.ofNat 8 (data.length / 256), BitVec.ofNat 8 data.length] ++ data] })
    ∧ ((h.seq = 0xFF ∨ ∃ hq : h.seq.toNat < 255, (s.slots[h.seq.toNat]).valid = false) →
      exec (.pktSync h rc data chk) s = .next { s with evLog := s.evLog ++ [[0x0A, h.seq, warn0]] })

/-- R149: an async packet never touches the pending table, whatever its sequence number. -/
def Obligations.AsyncPacketsLeavePendingTable : Prop :=
  ∀ (s : State) (h : Header) (body : List Byte) (chk : Byte),
    s.rxState = .inPacket → s.rxBuf = h.bytes ++ body ++ [chk] → classify s.cfg h.did h.cid h.seq ≠ .sync →
    ∃ t, exec (.rxByte 0xD8) s = .next t ∧ t.slots = s.slots ∧ t.seqCtr = s.seqCtr

/-! ### The correlation engine -/

/-- R121 and R122: a SEND within MAX_TX_PAYLOAD whose slot, the one SEQ_CTR names, is free: the slot is recorded with
the full timeout, the counter advances modulo 255, the frame is transmitted and SEND_ACCEPTED reported. Nothing else
changes. -/
def Obligations.SendAccepted : Prop :=
  ∀ (s : State) (flags did cid : Byte) (p : List Byte) (hq : s.seqCtr.toNat < 255),
    p.length ≤ s.cfg.maxTxPayload.val → (s.slots[s.seqCtr.toNat]).valid = false →
    exec (.send flags did cid p) s =
      .next { s with
        slots := s.slots.set s.seqCtr.toNat ⟨true, s.cfg.timeoutTicks⟩
        seqCtr := if s.seqCtr = 254 then 0 else s.seqCtr + 1
        txLog := s.txLog ++ frame flags did cid s.seqCtr p
        evLog := s.evLog ++ [[0x01, s.seqCtr]] }

/-- R123: under FAIL_FAST, a SEND whose slot is pending is rejected and changes no state. -/
def Obligations.BusySendRejected : Prop :=
  ∀ (s : State) (flags did cid : Byte) (p : List Byte),
    p.length ≤ s.cfg.maxTxPayload.val → isPending s s.seqCtr = true → s.cfg.allocPolicy = .failFast →
    exec (.send flags did cid p) s = .next { s with evLog := s.evLog ++ [[0x02, 0x01]] }

/-- R124 and R217: under BLOCK, a SEND at the head of the host port that finds its slot pending takes no step. Its
turn passes (the model's form of a hold, log 5), the host port keeps it and all behind it, and an input at another
port is not blocked. That a TICK, a RESET or a received byte does so at whichever of the three other ports it stands
is the model's choice (log 10). -/
def Obligations.BlockedSendHolds : Prop :=
  ∀ (s : State) (flags did cid : Byte) (p rest : List Byte) (ports : List Port),
    decode s.hostPort = .event (.send flags did cid p) rest → p.length ≤ s.cfg.maxTxPayload.val →
    isPending s s.seqCtr = true → s.cfg.allocPolicy = .block →
    (s.sched = .host :: ports → step s = .next { s with sched := ports })
      ∧ ∀ (port : Port) (i : Instr) (rest' : List Byte), port ≠ .host → s.sched = port :: ports →
          decode (portBytes s port) = .event i rest' → (i = .tick ∨ i = .reset ∨ ∃ b, i = .rxByte b) →
          ∃ t, step s = .next t ∧ portBytes t port = rest' ∧ t.hostPort = s.hostPort

/-- R210 corner case: a RESET lifts the hold, and the held SEND is then given SEQ_RESET. -/
def Obligations.ResetReleasesHeldSend : Prop :=
  ∀ (s : State) (flags did cid : Byte) (p rest rest' : List Byte) (ports : List Port),
    decode s.hostPort = .event (.send flags did cid p) rest → p.length ≤ s.cfg.maxTxPayload.val →
    decode s.resetPort = .event .reset rest' → s.sched = .reset :: .host :: ports →
    ∃ t, Host.Core.run core 2 s = .next t
      ∧ t.txLog = s.txLog ++ frame flags did cid (BitVec.ofNat 8 s.cfg.seqReset.val) p
      ∧ t.evLog = s.evLog ++ [[0x01, BitVec.ofNat 8 s.cfg.seqReset.val]]
      ∧ t.hostPort = rest ∧ isPending t (BitVec.ofNat 8 s.cfg.seqReset.val) = true

/-- R127: TICK takes one tick from every pending slot, frees those that reach 0, leaves free slots alone,
reports the expired numbers in ascending order, and changes nothing else. The premise is R26. -/
def Obligations.TickCountsDown : Prop :=
  ∀ s : State,
    (∀ q : Byte, isPending s q = true → 1 ≤ (slotAt s q).timer ∧ (slotAt s q).timer ≤ s.cfg.timeoutTicks) →
    ∃ t, exec .tick s = .next t
      ∧ (∀ q, isPending s q = true →
          slotAt t q = ⟨decide (2 ≤ (slotAt s q).timer), (slotAt s q).timer - 1⟩)
      ∧ (∀ q, isPending s q = false → slotAt t q = slotAt s q)
      ∧ t = { s with
          slots := t.slots
          evLog := s.evLog ++ ((List.range 255).filter fun n =>
              isPending s (BitVec.ofNat 8 n) && (slotAt s (BitVec.ofNat 8 n)).timer == 1).map fun n =>
            [0x04, BitVec.ofNat 8 n] }

/-- R129 in ticks, with R133: from a good state, a request with k ticks left is pending after fewer than k TICKs with
none reported for it, and expires on the k-th with its TIMEOUT reported once. -/
def Obligations.RequestExpiresOnItsLastTick : Prop :=
  ∀ (s : State) (q : Byte), s.Inv → isPending s q = true →
    (∀ j < (slotAt s q).timer, ∃ t, ticks j s = .next t ∧ slotAt t q = ⟨true, (slotAt s q).timer - j⟩
      ∧ [0x04, q] ∉ newRecords s t)
    ∧ ∃ t, ticks (slotAt s q).timer s = .next t ∧ isPending t q = false ∧ (newRecords s t).count [0x04, q] = 1

/-- R133 and R49: a pending slot is freed only by RESET, silently, or with exactly one completion, its RESPONSE or
its TIMEOUT, in the same step; and a completion is reported only for a slot that was pending and is then free. -/
def Obligations.CompletionExactlyWhenFreed : Prop :=
  ∀ (i : Instr) (s t : State) (q : Byte), exec i s = .next t →
    (isPending s q = true → isPending t q = false → i ≠ .reset → (newRecords s t).countP (completes q) = 1)
      ∧ (i = .reset → newRecords s t = [])
      ∧ ((∃ r ∈ newRecords s t, completes q r = true) → isPending s q = true ∧ isPending t q = false)

/-- R24, R120 and R131: only SEND makes a slot pending. It takes the slot that SEQ_CTR names, which was free, with
the full timeout, and reports that number. -/
def Obligations.OnlySendMakesPending : Prop :=
  ∀ (i : Instr) (s t : State) (q : Byte), exec i s = .next t → isPending s q = false → isPending t q = true →
    (∃ flags did cid p, i = .send flags did cid p ∧ t.txLog = s.txLog ++ frame flags did cid q p)
      ∧ q = s.seqCtr ∧ slotAt t q = ⟨true, s.cfg.timeoutTicks⟩ ∧ t.evLog = s.evLog ++ [[0x01, q]]

/-- R23 and R122: SEQ_CTR changes only where a SEND is accepted, by one modulo 255, and on RESET. -/
def Obligations.CounterAdvancesOnlyOnAllocation : Prop :=
  ∀ (i : Instr) (s t : State), exec i s = .next t → t.seqCtr ≠ s.seqCtr →
    (i = .reset ∧ t.seqCtr = BitVec.ofNat 8 s.cfg.seqReset.val)
      ∨ (newRecords s t = [[0x01, s.seqCtr]] ∧ t.seqCtr.toNat = (s.seqCtr.toNat + 1) % 255)

/-- R130: no step from a good state reports an accepted SEND with number 0xFF, or transmits a frame bearing it. -/
def Obligations.SentinelNeverAllocated : Prop :=
  ∀ s t : State, s.Inv → step s = .next t →
    [0x01, 0xFF] ∉ newRecords s t
      ∧ ∀ flags did cid p, t.txLog ≠ s.txLog ++ frame flags did cid 0xFF p

/-- R132: two responses to different pending numbers resolve their own slots in either order of arrival. -/
def Obligations.ResponsesResolveInAnyOrder : Prop :=
  ∀ (s : State) (h₁ h₂ : Header) (rc₁ rc₂ : Byte) (data₁ data₂ : List Byte) (chk₁ chk₂ : Byte),
    h₁.seq ≠ h₂.seq → isPending s h₁.seq = true → isPending s h₂.seq = true →
    ∃ t₁ t₁₂ t₂ t₂₁ r₁ r₂,
      exec (.pktSync h₁ rc₁ data₁ chk₁) s = .next t₁ ∧ exec (.pktSync h₂ rc₂ data₂ chk₂) t₁ = .next t₁₂
        ∧ exec (.pktSync h₂ rc₂ data₂ chk₂) s = .next t₂ ∧ exec (.pktSync h₁ rc₁ data₁ chk₁) t₂ = .next t₂₁
        ∧ t₁₂.evLog = s.evLog ++ [r₁, r₂] ∧ t₂₁.evLog = s.evLog ++ [r₂, r₁]
        ∧ completes h₁.seq r₁ = true ∧ completes h₂.seq r₂ = true
        ∧ t₁₂ = { t₂₁ with evLog := t₁₂.evLog }
        ∧ isPending t₁₂ h₁.seq = false ∧ isPending t₁₂ h₂.seq = false

/-- R185, with the serialiser's choices as the model holds them (log 1): a response and the TICK that expires its
slot both wait. If the response's END goes first there is a RESPONSE
and no TIMEOUT; if the TICK goes first there is a TIMEOUT, and the response is then UNMATCHED. -/
def Obligations.ResponseAndTimeoutRace : Prop :=
  ∀ (s : State) (h : Header) (rc chk : Byte) (data rest rest' : List Byte),
    s.rxState = .inPacket → s.rxBuf = h.bytes ++ rc :: data ++ [chk] →
    classify s.cfg h.did h.cid h.seq = .sync → slotAt s h.seq = ⟨true, 1⟩ →
    decode s.rxPort = .event (.rxByte 0xD8) rest → decode s.tickPort = .event .tick rest' →
    (∃ t r, Host.Core.run core 2 { s with sched := [.transport, .tick] } = .next t
        ∧ (newRecords s t).head? = some r ∧ r.take 2 = [0x03, h.seq] ∧ [0x04, h.seq] ∉ newRecords s t)
      ∧ ∃ t, Host.Core.run core 2 { s with sched := [.tick, .transport] } = .next t
        ∧ [0x04, h.seq] ∈ newRecords s t
        ∧ (newRecords s t).getLast? = some [0x0A, h.seq, warnOf (h.bytes ++ rc :: data) chk]
        ∧ ∀ r ∈ newRecords s t, r.take 2 ≠ [0x03, h.seq]

/-! ### The telemetry mask decoder -/

/-- R161: the Active Field List holds exactly the set bits of the mask, in descending order, so its length is the
mask's popcount, at most 32. -/
def Obligations.ActiveFieldListOfMask : Prop :=
  ∀ m : Word,
    (∀ b, b ∈ activeBits m ↔ b < 32 ∧ m.getLsbD b = true)
      ∧ (activeBits m).Pairwise (fun a b => b < a)
      ∧ (activeBits m).length = popcount m ∧ (activeBits m).length ≤ 32

/-- R162 and R163: each SET_MASK writes its own mask whole, and nothing else. -/
def Obligations.MaskWritesWhole : Prop :=
  ∀ (s : State) (m : Word),
    exec (.setMask1 m) s = .next { s with mask1 := m } ∧ exec (.setMask2 m) s = .next { s with mask2 := m }

/-- R50 and R164: what decides which mask a sample is decoded against is its END step. A SET_MASK before or after any
other byte of the packet makes no difference. -/
def Obligations.MaskWriteCommutesWithCollecting : Prop :=
  ∀ (s : State) (m : Word) (b : Byte), ¬ (s.rxState = .inPacket ∧ b = 0xD8) →
    ∃ t, exec (.rxByte b) s = .next t
      ∧ exec (.rxByte b) { s with mask1 := m } = .next { t with mask1 := m }
      ∧ exec (.rxByte b) { s with mask2 := m } = .next { t with mask2 := m }

/-- R168 and R170: no instruction's effect depends on the field names or the reserved flags. -/
def Obligations.FieldTableNeverRead : Prop :=
  ∀ (i : Instr) (s : State) (f₁ f₂ : Vector FieldDescriptor 32),
    let retable := fun u : State => { u with cfg := { u.cfg with fields1 := f₁, fields2 := f₂ } }
    match exec i s with
    | .next t => exec i (retable s) = .next (retable t)
    | .fault r => exec i (retable s) = .fault r
    | .refused r => exec i (retable s) = .refused r

/-! ### Reset -/

/-- R210: RESET gives every field its reset value and keeps both logs. -/
def Obligations.ResetLeaves : Prop :=
  ∀ s : State,
    exec .reset s =
      .next { s with
        rxState := .idle
        rxBuf := []
        seqCtr := BitVec.ofNat 8 s.cfg.seqReset.val
        slots := Vector.replicate 255 ⟨false, 0⟩
        mask1 := 0
        mask2 := 0 }

/-- R34 and R211: the state at power-on is that of a RESET, with empty logs. -/
def Obligations.PowerOnIsResetWithEmptyLogs : Prop :=
  ∀ c : Config,
    exec .reset (State.powerOn c) = .next (State.powerOn c)
      ∧ (State.powerOn c).txLog = [] ∧ (State.powerOn c).evLog = [] ∧ (State.powerOn c).cfg = c
      ∧ ∀ s t : State, s.cfg = c → exec .reset s = .next t →
          t.rxState = (State.powerOn c).rxState ∧ t.rxBuf = (State.powerOn c).rxBuf
            ∧ t.seqCtr = (State.powerOn c).seqCtr ∧ t.slots = (State.powerOn c).slots
            ∧ t.mask1 = (State.powerOn c).mask1 ∧ t.mask2 = (State.powerOn c).mask2

/-- R218: RESET frees every slot with no event, and a response that comes next is UNMATCHED, whatever its number. -/
def Obligations.ResponseAfterResetUnmatched : Prop :=
  ∀ (s : State) (h : Header) (rc : Byte) (data : List Byte) (chk : Byte),
    ∃ t, exec .reset s = .next t ∧ t.evLog = s.evLog ∧ (∀ q, isPending t q = false)
      ∧ exec (.pktSync h rc data chk) t =
          .next { t with evLog := t.evLog ++ [[0x0A, h.seq, warnOf (h.bytes ++ rc :: data) chk]] }

/-! ### Unescape -/

/-- R90, `unescape`. It reads off a stream, byte by byte, what RX_BYTE appends to RX_BUF: nothing in IDLE, nothing
for a marker in IN_PACKET, the byte of R88 or R89 where the buffer has room, nothing where it is full; the step
leaves the buffer with just that appended, or cleared. `endState` is the final RX_STATE. A stream in two deliveries
goes on from the state and buffer that the first leaves, and decodes as if it were delivered whole. -/
def Obligations.UnescapeOfStream : Prop :=
  (∀ s : State, unescape [] s = ([], s.rxState))
    ∧ (∀ (s : State) (b : Byte) (l : List Byte),
        let appended : List Byte :=
          if s.rxState = .idle ∨ s.cfg.rxBufMax ≤ s.rxBuf.length then []
          else if s.rxState = .escPending then [b ||| 0x88]
          else if b = 0x8D ∨ b = 0xD8 ∨ b = 0xAB then [] else [b]
        ∃ t, exec (.rxByte b) s = .next t
          ∧ (t.rxBuf = s.rxBuf ++ appended ∨ (t.rxBuf = [] ∧ appended = []))
          ∧ unescape (b :: l) s = (appended ++ (unescape l t).1, (unescape l t).2))
    ∧ ∀ (s : State) (l m : List Byte),
        ∃ t, receive l s = .next t ∧ (unescape l s).2 = t.rxState ∧ receive (l ++ m) s = receive m t
          ∧ unescape (l ++ m) s = ((unescape l s).1 ++ (unescape m t).1, (unescape m t).2)

/-- R90 with R91 and R104: in IN_PACKET, where the buffer has room, `unescape` undoes `escape`; in IDLE or IN_PACKET
it decodes a whole frame to its body, although the END clears RX_BUF and a partial packet is dropped at the
START. -/
def Obligations.UnescapeOfEscapeAndFrame : Prop :=
  (∀ (s : State) (l : List Byte), s.rxState = .inPacket → s.rxBuf.length + l.length ≤ s.cfg.rxBufMax →
      unescape (escape l) s = (l, .inPacket))
    ∧ ∀ (s : State) (flags did cid seq : Byte) (p : List Byte),
        s.rxState ≠ .escPending → p.length + 5 ≤ s.cfg.rxBufMax →
        unescape (frame flags did cid seq p) s =
          ([flags, did, cid, seq] ++ p ++ [checksum ([flags, did, cid, seq] ++ p)], .idle)
end

