-- ==== Sys2Proof/Laws/State.lean ====
section
/-! SUPPORT. Each operation that updates the state, field by field. -/

namespace Sys2Proof.Machine

variable (s : State)

@[simp] theorem emitRecords_cfg (records : List (List Byte)) : (emitRecords s records).cfg = s.cfg := rfl
@[simp] theorem emitRecords_rxState (records : List (List Byte)) : (emitRecords s records).rxState = s.rxState := rfl
@[simp] theorem emitRecords_rxBuf (records : List (List Byte)) : (emitRecords s records).rxBuf = s.rxBuf := rfl
@[simp] theorem emitRecords_seqCtr (records : List (List Byte)) : (emitRecords s records).seqCtr = s.seqCtr := rfl
@[simp] theorem emitRecords_slots (records : List (List Byte)) : (emitRecords s records).slots = s.slots := rfl
@[simp] theorem emitRecords_mask1 (records : List (List Byte)) : (emitRecords s records).mask1 = s.mask1 := rfl
@[simp] theorem emitRecords_mask2 (records : List (List Byte)) : (emitRecords s records).mask2 = s.mask2 := rfl
@[simp] theorem emitRecords_txLog (records : List (List Byte)) : (emitRecords s records).txLog = s.txLog := rfl
@[simp] theorem emitRecords_evLog (records : List (List Byte)) : (emitRecords s records).evLog = s.evLog ++ records := rfl
@[simp] theorem emitRecords_hostPort (records : List (List Byte)) : (emitRecords s records).hostPort = s.hostPort := rfl
@[simp] theorem emitRecords_rxPort (records : List (List Byte)) : (emitRecords s records).rxPort = s.rxPort := rfl
@[simp] theorem emitRecords_tickPort (records : List (List Byte)) : (emitRecords s records).tickPort = s.tickPort := rfl
@[simp] theorem emitRecords_resetPort (records : List (List Byte)) : (emitRecords s records).resetPort = s.resetPort := rfl
@[simp] theorem emitRecords_sched (records : List (List Byte)) : (emitRecords s records).sched = s.sched := rfl

@[simp] theorem transmit_cfg (bytes : List Byte) : (transmit s bytes).cfg = s.cfg := rfl
@[simp] theorem transmit_rxState (bytes : List Byte) : (transmit s bytes).rxState = s.rxState := rfl
@[simp] theorem transmit_rxBuf (bytes : List Byte) : (transmit s bytes).rxBuf = s.rxBuf := rfl
@[simp] theorem transmit_seqCtr (bytes : List Byte) : (transmit s bytes).seqCtr = s.seqCtr := rfl
@[simp] theorem transmit_slots (bytes : List Byte) : (transmit s bytes).slots = s.slots := rfl
@[simp] theorem transmit_mask1 (bytes : List Byte) : (transmit s bytes).mask1 = s.mask1 := rfl
@[simp] theorem transmit_mask2 (bytes : List Byte) : (transmit s bytes).mask2 = s.mask2 := rfl
@[simp] theorem transmit_txLog (bytes : List Byte) : (transmit s bytes).txLog = s.txLog ++ bytes := rfl
@[simp] theorem transmit_evLog (bytes : List Byte) : (transmit s bytes).evLog = s.evLog := rfl
@[simp] theorem transmit_hostPort (bytes : List Byte) : (transmit s bytes).hostPort = s.hostPort := rfl
@[simp] theorem transmit_rxPort (bytes : List Byte) : (transmit s bytes).rxPort = s.rxPort := rfl
@[simp] theorem transmit_tickPort (bytes : List Byte) : (transmit s bytes).tickPort = s.tickPort := rfl
@[simp] theorem transmit_resetPort (bytes : List Byte) : (transmit s bytes).resetPort = s.resetPort := rfl
@[simp] theorem transmit_sched (bytes : List Byte) : (transmit s bytes).sched = s.sched := rfl

@[simp] theorem rxAppend_cfg (b : Byte) : (rxAppend s b).cfg = s.cfg := rfl
@[simp] theorem rxAppend_rxState (b : Byte) : (rxAppend s b).rxState = s.rxState := rfl
@[simp] theorem rxAppend_rxBuf (b : Byte) : (rxAppend s b).rxBuf = s.rxBuf ++ [b] := rfl
@[simp] theorem rxAppend_seqCtr (b : Byte) : (rxAppend s b).seqCtr = s.seqCtr := rfl
@[simp] theorem rxAppend_slots (b : Byte) : (rxAppend s b).slots = s.slots := rfl
@[simp] theorem rxAppend_mask1 (b : Byte) : (rxAppend s b).mask1 = s.mask1 := rfl
@[simp] theorem rxAppend_mask2 (b : Byte) : (rxAppend s b).mask2 = s.mask2 := rfl
@[simp] theorem rxAppend_txLog (b : Byte) : (rxAppend s b).txLog = s.txLog := rfl
@[simp] theorem rxAppend_evLog (b : Byte) : (rxAppend s b).evLog = s.evLog := rfl
@[simp] theorem rxAppend_hostPort (b : Byte) : (rxAppend s b).hostPort = s.hostPort := rfl
@[simp] theorem rxAppend_rxPort (b : Byte) : (rxAppend s b).rxPort = s.rxPort := rfl
@[simp] theorem rxAppend_tickPort (b : Byte) : (rxAppend s b).tickPort = s.tickPort := rfl
@[simp] theorem rxAppend_resetPort (b : Byte) : (rxAppend s b).resetPort = s.resetPort := rfl
@[simp] theorem rxAppend_sched (b : Byte) : (rxAppend s b).sched = s.sched := rfl

@[simp] theorem rxClear_cfg : (rxClear s).cfg = s.cfg := rfl
@[simp] theorem rxClear_rxState : (rxClear s).rxState = s.rxState := rfl
@[simp] theorem rxClear_rxBuf : (rxClear s).rxBuf = [] := rfl
@[simp] theorem rxClear_seqCtr : (rxClear s).seqCtr = s.seqCtr := rfl
@[simp] theorem rxClear_slots : (rxClear s).slots = s.slots := rfl
@[simp] theorem rxClear_mask1 : (rxClear s).mask1 = s.mask1 := rfl
@[simp] theorem rxClear_mask2 : (rxClear s).mask2 = s.mask2 := rfl
@[simp] theorem rxClear_txLog : (rxClear s).txLog = s.txLog := rfl
@[simp] theorem rxClear_evLog : (rxClear s).evLog = s.evLog := rfl
@[simp] theorem rxClear_hostPort : (rxClear s).hostPort = s.hostPort := rfl
@[simp] theorem rxClear_rxPort : (rxClear s).rxPort = s.rxPort := rfl
@[simp] theorem rxClear_tickPort : (rxClear s).tickPort = s.tickPort := rfl
@[simp] theorem rxClear_resetPort : (rxClear s).resetPort = s.resetPort := rfl
@[simp] theorem rxClear_sched : (rxClear s).sched = s.sched := rfl

@[simp] theorem setRxState_cfg (r : RxState) : (setRxState s r).cfg = s.cfg := rfl
@[simp] theorem setRxState_rxState (r : RxState) : (setRxState s r).rxState = r := rfl
@[simp] theorem setRxState_rxBuf (r : RxState) : (setRxState s r).rxBuf = s.rxBuf := rfl
@[simp] theorem setRxState_seqCtr (r : RxState) : (setRxState s r).seqCtr = s.seqCtr := rfl
@[simp] theorem setRxState_slots (r : RxState) : (setRxState s r).slots = s.slots := rfl
@[simp] theorem setRxState_mask1 (r : RxState) : (setRxState s r).mask1 = s.mask1 := rfl
@[simp] theorem setRxState_mask2 (r : RxState) : (setRxState s r).mask2 = s.mask2 := rfl
@[simp] theorem setRxState_txLog (r : RxState) : (setRxState s r).txLog = s.txLog := rfl
@[simp] theorem setRxState_evLog (r : RxState) : (setRxState s r).evLog = s.evLog := rfl
@[simp] theorem setRxState_hostPort (r : RxState) : (setRxState s r).hostPort = s.hostPort := rfl
@[simp] theorem setRxState_rxPort (r : RxState) : (setRxState s r).rxPort = s.rxPort := rfl
@[simp] theorem setRxState_tickPort (r : RxState) : (setRxState s r).tickPort = s.tickPort := rfl
@[simp] theorem setRxState_resetPort (r : RxState) : (setRxState s r).resetPort = s.resetPort := rfl
@[simp] theorem setRxState_sched (r : RxState) : (setRxState s r).sched = s.sched := rfl

@[simp] theorem setSched_cfg (ports : List Port) : (setSched s ports).cfg = s.cfg := rfl
@[simp] theorem setSched_rxState (ports : List Port) : (setSched s ports).rxState = s.rxState := rfl
@[simp] theorem setSched_rxBuf (ports : List Port) : (setSched s ports).rxBuf = s.rxBuf := rfl
@[simp] theorem setSched_seqCtr (ports : List Port) : (setSched s ports).seqCtr = s.seqCtr := rfl
@[simp] theorem setSched_slots (ports : List Port) : (setSched s ports).slots = s.slots := rfl
@[simp] theorem setSched_mask1 (ports : List Port) : (setSched s ports).mask1 = s.mask1 := rfl
@[simp] theorem setSched_mask2 (ports : List Port) : (setSched s ports).mask2 = s.mask2 := rfl
@[simp] theorem setSched_txLog (ports : List Port) : (setSched s ports).txLog = s.txLog := rfl
@[simp] theorem setSched_evLog (ports : List Port) : (setSched s ports).evLog = s.evLog := rfl
@[simp] theorem setSched_hostPort (ports : List Port) : (setSched s ports).hostPort = s.hostPort := rfl
@[simp] theorem setSched_rxPort (ports : List Port) : (setSched s ports).rxPort = s.rxPort := rfl
@[simp] theorem setSched_tickPort (ports : List Port) : (setSched s ports).tickPort = s.tickPort := rfl
@[simp] theorem setSched_resetPort (ports : List Port) : (setSched s ports).resetPort = s.resetPort := rfl
@[simp] theorem setSched_sched (ports : List Port) : (setSched s ports).sched = ports := rfl

@[simp] theorem resetBlock_cfg : (resetBlock s).cfg = s.cfg := rfl
@[simp] theorem resetBlock_rxState : (resetBlock s).rxState = .idle := rfl
@[simp] theorem resetBlock_rxBuf : (resetBlock s).rxBuf = [] := rfl
@[simp] theorem resetBlock_seqCtr : (resetBlock s).seqCtr = BitVec.ofNat 8 s.cfg.seqReset.val := rfl
@[simp] theorem resetBlock_slots : (resetBlock s).slots = Vector.replicate 255 ⟨false, 0⟩ := rfl
@[simp] theorem resetBlock_mask1 : (resetBlock s).mask1 = 0 := rfl
@[simp] theorem resetBlock_mask2 : (resetBlock s).mask2 = 0 := rfl
@[simp] theorem resetBlock_txLog : (resetBlock s).txLog = s.txLog := rfl
@[simp] theorem resetBlock_evLog : (resetBlock s).evLog = s.evLog := rfl
@[simp] theorem resetBlock_hostPort : (resetBlock s).hostPort = s.hostPort := rfl
@[simp] theorem resetBlock_rxPort : (resetBlock s).rxPort = s.rxPort := rfl
@[simp] theorem resetBlock_tickPort : (resetBlock s).tickPort = s.tickPort := rfl
@[simp] theorem resetBlock_resetPort : (resetBlock s).resetPort = s.resetPort := rfl
@[simp] theorem resetBlock_sched : (resetBlock s).sched = s.sched := rfl

@[simp] theorem setPortBytes_cfg (p : Port) (l : List Byte) : (setPortBytes s p l).cfg = s.cfg := by cases p <;> rfl
@[simp] theorem setPortBytes_rxState (p : Port) (l : List Byte) : (setPortBytes s p l).rxState = s.rxState := by cases p <;> rfl
@[simp] theorem setPortBytes_rxBuf (p : Port) (l : List Byte) : (setPortBytes s p l).rxBuf = s.rxBuf := by cases p <;> rfl
@[simp] theorem setPortBytes_seqCtr (p : Port) (l : List Byte) : (setPortBytes s p l).seqCtr = s.seqCtr := by cases p <;> rfl
@[simp] theorem setPortBytes_slots (p : Port) (l : List Byte) : (setPortBytes s p l).slots = s.slots := by cases p <;> rfl
@[simp] theorem setPortBytes_mask1 (p : Port) (l : List Byte) : (setPortBytes s p l).mask1 = s.mask1 := by cases p <;> rfl
@[simp] theorem setPortBytes_mask2 (p : Port) (l : List Byte) : (setPortBytes s p l).mask2 = s.mask2 := by cases p <;> rfl
@[simp] theorem setPortBytes_txLog (p : Port) (l : List Byte) : (setPortBytes s p l).txLog = s.txLog := by cases p <;> rfl
@[simp] theorem setPortBytes_evLog (p : Port) (l : List Byte) : (setPortBytes s p l).evLog = s.evLog := by cases p <;> rfl
@[simp] theorem setPortBytes_sched (p : Port) (l : List Byte) : (setPortBytes s p l).sched = s.sched := by cases p <;> rfl

@[simp] theorem setSlot_cfg (q : Byte) (x : Slot) : (setSlot s q x).cfg = s.cfg := by unfold setSlot; split <;> rfl
@[simp] theorem setSlot_rxState (q : Byte) (x : Slot) : (setSlot s q x).rxState = s.rxState := by unfold setSlot; split <;> rfl
@[simp] theorem setSlot_rxBuf (q : Byte) (x : Slot) : (setSlot s q x).rxBuf = s.rxBuf := by unfold setSlot; split <;> rfl
@[simp] theorem setSlot_seqCtr (q : Byte) (x : Slot) : (setSlot s q x).seqCtr = s.seqCtr := by unfold setSlot; split <;> rfl
@[simp] theorem setSlot_mask1 (q : Byte) (x : Slot) : (setSlot s q x).mask1 = s.mask1 := by unfold setSlot; split <;> rfl
@[simp] theorem setSlot_mask2 (q : Byte) (x : Slot) : (setSlot s q x).mask2 = s.mask2 := by unfold setSlot; split <;> rfl
@[simp] theorem setSlot_txLog (q : Byte) (x : Slot) : (setSlot s q x).txLog = s.txLog := by unfold setSlot; split <;> rfl
@[simp] theorem setSlot_evLog (q : Byte) (x : Slot) : (setSlot s q x).evLog = s.evLog := by unfold setSlot; split <;> rfl
@[simp] theorem setSlot_hostPort (q : Byte) (x : Slot) : (setSlot s q x).hostPort = s.hostPort := by unfold setSlot; split <;> rfl
@[simp] theorem setSlot_rxPort (q : Byte) (x : Slot) : (setSlot s q x).rxPort = s.rxPort := by unfold setSlot; split <;> rfl
@[simp] theorem setSlot_tickPort (q : Byte) (x : Slot) : (setSlot s q x).tickPort = s.tickPort := by unfold setSlot; split <;> rfl
@[simp] theorem setSlot_resetPort (q : Byte) (x : Slot) : (setSlot s q x).resetPort = s.resetPort := by unfold setSlot; split <;> rfl
@[simp] theorem setSlot_sched (q : Byte) (x : Slot) : (setSlot s q x).sched = s.sched := by unfold setSlot; split <;> rfl

@[simp] theorem freeSlot_cfg (q : Byte) : (freeSlot s q).cfg = s.cfg := by simp [freeSlot]
@[simp] theorem freeSlot_rxState (q : Byte) : (freeSlot s q).rxState = s.rxState := by simp [freeSlot]
@[simp] theorem freeSlot_rxBuf (q : Byte) : (freeSlot s q).rxBuf = s.rxBuf := by simp [freeSlot]
@[simp] theorem freeSlot_seqCtr (q : Byte) : (freeSlot s q).seqCtr = s.seqCtr := by simp [freeSlot]
@[simp] theorem freeSlot_mask1 (q : Byte) : (freeSlot s q).mask1 = s.mask1 := by simp [freeSlot]
@[simp] theorem freeSlot_mask2 (q : Byte) : (freeSlot s q).mask2 = s.mask2 := by simp [freeSlot]
@[simp] theorem freeSlot_txLog (q : Byte) : (freeSlot s q).txLog = s.txLog := by simp [freeSlot]
@[simp] theorem freeSlot_evLog (q : Byte) : (freeSlot s q).evLog = s.evLog := by simp [freeSlot]
@[simp] theorem freeSlot_hostPort (q : Byte) : (freeSlot s q).hostPort = s.hostPort := by simp [freeSlot]
@[simp] theorem freeSlot_rxPort (q : Byte) : (freeSlot s q).rxPort = s.rxPort := by simp [freeSlot]
@[simp] theorem freeSlot_tickPort (q : Byte) : (freeSlot s q).tickPort = s.tickPort := by simp [freeSlot]
@[simp] theorem freeSlot_resetPort (q : Byte) : (freeSlot s q).resetPort = s.resetPort := by simp [freeSlot]
@[simp] theorem freeSlot_sched (q : Byte) : (freeSlot s q).sched = s.sched := by simp [freeSlot]

end Sys2Proof.Machine
end

