-- ==== Sys2Proof/Laws/Ops.lean ====
section
/-! SUPPORT. The pending-request table and the ports: what reading after writing gives (10_state.md R24, R25). -/

namespace Sys2Proof.Machine

/-! ### Slots -/

/-- A slot is a function of the table alone. -/
theorem slotAt_congr {s t : State} (h : s.slots = t.slots) (q : Byte) : slotAt s q = slotAt t q := by
  simp [slotAt, h]

/-- Whether a slot is pending is a function of the table alone. -/
theorem isPending_congr {s t : State} (h : s.slots = t.slots) (q : Byte) : isPending s q = isPending t q := by
  simp [isPending, slotAt_congr h]

/-- A number below 255 names an entry of the table. -/
theorem slotAt_of_lt (s : State) {q : Byte} (h : q.toNat < 255) : slotAt s q = s.slots[q.toNat] := by
  simp [slotAt, h]

/-- Number 255 reads as free (R24). -/
theorem slotAt_sentinel (s : State) : slotAt s 255#8 = ⟨false, 0⟩ := rfl

/-- A byte is below 255 unless it is the sentinel. -/
theorem toNat_lt_of_ne {q : Byte} (h : q ≠ 0xFF) : q.toNat < 255 := by
  have h1 := q.isLt
  have h2 : q.toNat ≠ 255 := fun h3 => h (BitVec.eq_of_toNat_eq (by simpa using h3))
  omega

/-- A pending number is below 255 (R24). -/
theorem lt_of_isPending {s : State} {q : Byte} (h : isPending s q = true) : q.toNat < 255 := by
  apply toNat_lt_of_ne
  rintro rfl
  exact absurd h (by simp [isPending, slotAt_sentinel])

/-- Reading the slot just written. -/
theorem slotAt_setSlot_self (s : State) {q : Byte} (h : q.toNat < 255) (x : Slot) : slotAt (setSlot s q x) q = x := by
  simp [slotAt, setSlot, h]

/-- Reading another slot. -/
theorem slotAt_setSlot_of_ne (s : State) {q r : Byte} (h : q ≠ r) (x : Slot) :
    slotAt (setSlot s q x) r = slotAt s r := by
  have h' : q.toNat ≠ r.toNat := fun e => h (BitVec.eq_of_toNat_eq e)
  unfold setSlot
  split
  · unfold slotAt
    split
    · simp [Vector.getElem_set_ne, h']
    · rfl
  · rfl

/-- The table after a write below 255. -/
theorem setSlot_slots (s : State) {q : Byte} (h : q.toNat < 255) (x : Slot) :
    (setSlot s q x).slots = s.slots.set q.toNat x := by
  simp [setSlot, h]

/-- A write of number 255 is discarded (R24). -/
theorem setSlot_sentinel (s : State) (x : Slot) : setSlot s 0xFF x = s := rfl

/-- Freeing a slot leaves its timer (R125) and makes it free. -/
theorem slotAt_freeSlot_self (s : State) (q : Byte) : slotAt (freeSlot s q) q = ⟨false, (slotAt s q).timer⟩ := by
  by_cases h : q.toNat < 255
  · exact slotAt_setSlot_self s h _
  · have h1 : q = 0xFF := by
      by_contra hne
      exact h (toNat_lt_of_ne hne)
    subst h1
    rfl

/-- Freeing a slot leaves the others. -/
theorem slotAt_freeSlot_of_ne (s : State) {q r : Byte} (h : q ≠ r) : slotAt (freeSlot s q) r = slotAt s r :=
  slotAt_setSlot_of_ne s h _

/-- A slot after one is freed. -/
theorem slotAt_freeSlot (s : State) (q r : Byte) :
    slotAt (freeSlot s q) r = if q = r then ⟨false, (slotAt s r).timer⟩ else slotAt s r := by
  split
  · rename_i e
    subst e
    exact slotAt_freeSlot_self s q
  · rename_i e
    exact slotAt_freeSlot_of_ne s e

/-- Records do not touch the table. -/
@[simp] theorem slotAt_emitRecords (s : State) (records : List (List Byte)) (q : Byte) :
    slotAt (emitRecords s records) q = slotAt s q := rfl

/-- Records do not touch the table. -/
@[simp] theorem isPending_emitRecords (s : State) (records : List (List Byte)) (q : Byte) :
    isPending (emitRecords s records) q = isPending s q := rfl

/-- After RESET every slot is free (R210). -/
theorem slotAt_resetBlock (s : State) (q : Byte) : slotAt (resetBlock s) q = ⟨false, 0⟩ := by
  simp [slotAt]

/-- Two tables that agree slot by slot are equal. -/
theorem slots_ext {s t : State} (h : ∀ q, slotAt s q = slotAt t q) : s.slots = t.slots := by
  apply Vector.ext
  intro i hi
  have hb : (BitVec.ofNat 8 i).toNat = i := by simp; omega
  have hq := h (BitVec.ofNat 8 i)
  rw [slotAt_of_lt s (by omega), slotAt_of_lt t (by omega)] at hq
  simpa only [hb] using hq

/-! ### Ports -/

/-- Reading the port just written. -/
@[simp] theorem portBytes_setPortBytes_self (s : State) (p : Port) (l : List Byte) :
    portBytes (setPortBytes s p l) p = l := by
  cases p <;> rfl

/-- Reading another port. -/
theorem portBytes_setPortBytes_of_ne (s : State) {p r : Port} (h : p ≠ r) (l : List Byte) :
    portBytes (setPortBytes s p l) r = portBytes s r := by
  cases p <;> cases r <;> first | rfl | exact absurd rfl h

/-- The serialiser's choices do not touch the ports. -/
@[simp] theorem portBytes_setSched (s : State) (ports : List Port) (p : Port) :
    portBytes (setSched s ports) p = portBytes s p := by
  cases p <;> rfl

/-- The table is not touched by what an input takes from its port. -/
@[simp] theorem slotAt_setPortBytes (s : State) (p : Port) (l : List Byte) (q : Byte) :
    slotAt (setPortBytes s p l) q = slotAt s q :=
  slotAt_congr (setPortBytes_slots s p l) q

/-! ### The counter -/

/-- The counter stays below 255 (R23). -/
theorem nextSeq_toNat (v : Byte) : (nextSeq v).toNat = (v.toNat + 1) % 255 := by
  simp only [nextSeq, BitVec.toNat_ofNat]
  have := Nat.mod_lt (v.toNat + 1) (show 0 < 255 by decide)
  omega

end Sys2Proof.Machine
end

