-- ==== Sys2Proof/Laws/Correlation.lean ====
section
/-! SUPPORT. What the shared operations of the correlation engine can do (42_correlation.md). -/

namespace Sys2Proof.Machine

/-! ### The timers -/

/-- TIMEOUT_TICKS fits in TW bits (10_state.md R20). -/
theorem timeoutTicks_lt_two_pow (c : Config) : c.timeoutTicks < 2 ^ timerWidth c :=
  Nat.lt_log2_self

/-- A timer that is not 0 and fits counts down by one. -/
theorem timerPred_of_pos {tw t : Nat} (h1 : 1 ≤ t) (h2 : t < 2 ^ tw) : timerPred tw t = t - 1 := by
  unfold timerPred
  rw [show t + 2 ^ tw - 1 = (t - 1) + 2 ^ tw by omega, Nat.add_mod_right, Nat.mod_eq_of_lt (by omega)]

/-- A timer within TIMEOUT_TICKS counts down by one (R26, R127). -/
theorem timerPred_of_le (c : Config) {t : Nat} (h1 : 1 ≤ t) (h2 : t ≤ c.timeoutTicks) :
    timerPred (timerWidth c) t = t - 1 :=
  timerPred_of_pos h1 (Nat.lt_of_le_of_lt h2 (timeoutTicks_lt_two_pow c))

/-- The last tick brings a timer to 0, whatever its width. -/
theorem timerPred_one (tw : Nat) : timerPred tw 1 = 0 := by
  unfold timerPred
  rw [Nat.add_sub_cancel_left, Nat.mod_self]

/-- TICK at one slot of the table (R127). -/
theorem slotAt_map_tickSlot (s : State) (tw : Nat) (q : Byte) :
    slotAt { s with slots := s.slots.map (tickSlot tw) } q = tickSlot tw (slotAt s q) := by
  unfold slotAt
  split
  · simp
  · simp [tickSlot]

/-- A slot that stays pending over a TICK, and one that is freed by it. -/
theorem tickSlot_valid (tw : Nat) (x : Slot) :
    (tickSlot tw x).valid = (x.valid && !slotExpires tw x) := by
  cases hx : x.valid <;> simp [tickSlot, slotExpires, hx, bne]

/-- The TIMEOUT records from slot `n` on are those of the expiring slots, in order. -/
theorem timeoutRecords_eq (tw : Nat) (l : List Slot) (n : Nat) :
    timeoutRecords tw n l =
      ((l.zipIdx n).filter fun x => slotExpires tw x.1).map fun x => [0x04, BitVec.ofNat 8 x.2] := by
  induction l generalizing n with
  | nil => rfl
  | cons x xs ih =>
      simp only [timeoutRecords, List.zipIdx_cons, List.filter_cons]
      split <;> simp [ih, eventRecord]

/-- The TIMEOUT records of a TICK are those of the slots that expire on it (R127). -/
theorem mem_timeoutRecords (s : State) (tw : Nat) (r : List Byte) :
    r ∈ timeoutRecords tw 0 s.slots.toList ↔ ∃ q : Byte, slotExpires tw (slotAt s q) = true ∧ r = [0x04, q] := by
  rw [timeoutRecords_eq]
  simp only [List.mem_map, List.mem_filter, Prod.exists, List.mk_mem_zipIdx_iff_le_and_getElem?_sub]
  constructor
  · rintro ⟨x, k, ⟨⟨-, h2⟩, h3⟩, rfl⟩
    obtain ⟨hk, rfl⟩ := List.getElem?_eq_some_iff.1 h2
    simp only [Nat.sub_zero, Vector.length_toList] at hk
    have hb : (BitVec.ofNat 8 k).toNat = k := by simp; omega
    refine ⟨BitVec.ofNat 8 k, ?_, rfl⟩
    rw [slotAt_of_lt s (by omega)]
    simpa [hb] using h3
  · rintro ⟨q, h, rfl⟩
    have hq : q.toNat < 255 := by
      apply toNat_lt_of_ne
      rintro rfl
      simp [slotAt_sentinel, slotExpires] at h
    rw [slotAt_of_lt s hq] at h
    exact ⟨s.slots[q.toNat], q.toNat, ⟨⟨by omega, by simp [hq]⟩, h⟩, by simp⟩

/-- No number expires twice on one TICK (R127). -/
theorem timeoutRecords_nodup (s : State) (tw : Nat) : (timeoutRecords tw 0 s.slots.toList).Nodup := by
  rw [timeoutRecords_eq]
  have h1 : ((s.slots.toList.zipIdx 0).filter fun x => slotExpires tw x.1).Pairwise
      (fun a b => a.2 < b.2 ∧ b.2 < 255) := by
    apply List.Pairwise.filter
    rw [List.pairwise_iff_getElem]
    intro i j hi hj hij
    simp at hi hj ⊢
    exact ⟨hij, hj⟩
  refine List.Pairwise.map _ (fun a b h he => ?_) h1
  simp at he
  have := congrArg BitVec.toNat he
  simp at this
  omega

/-! ### SEND and RESOLVE -/

/-- What an accepted SEND does (R121). -/
theorem acceptSend_eq (flags did cid : Byte) (p : List Byte) (s : State) :
    acceptSend flags did cid p s =
      { setSlot s s.seqCtr ⟨true, s.cfg.timeoutTicks⟩ with
        seqCtr := nextSeq s.seqCtr
        txLog := s.txLog ++ frame flags did cid s.seqCtr p
        evLog := s.evLog ++ [[0x01, s.seqCtr]] } := by
  simp [acceptSend, emitRecords, transmit, eventRecord]

/-- What SEND can do (R121 to R124): refuse a payload beyond the bound, reject, hold, or accept. -/
theorem execSend_cases (flags did cid : Byte) (p : List Byte) (s : State) :
    (s.cfg.maxTxPayload.val < p.length ∧ execSend flags did cid p s = .refused .payloadTooLong)
      ∨ (p.length ≤ s.cfg.maxTxPayload.val ∧ isPending s s.seqCtr = true ∧ s.cfg.allocPolicy = .failFast
          ∧ execSend flags did cid p s = .next (emitRecords s [[0x02, 0x01]]))
      ∨ (p.length ≤ s.cfg.maxTxPayload.val ∧ isPending s s.seqCtr = true ∧ s.cfg.allocPolicy = .block
          ∧ execSend flags did cid p s = .next s)
      ∨ (p.length ≤ s.cfg.maxTxPayload.val ∧ isPending s s.seqCtr = false
          ∧ execSend flags did cid p s = .next (acceptSend flags did cid p s)) := by
  unfold execSend
  by_cases h1 : s.cfg.maxTxPayload.val < p.length
  · simp [h1]
  · cases h2 : isPending s s.seqCtr <;> cases h3 : s.cfg.allocPolicy <;>
      simp_all [eventRecord]

/-- What RESOLVE can do (R125, R126): free the slot and deliver, or report UNMATCHED. -/
theorem resolve_cases (q rc : Byte) (data : List Byte) (warn0 : Byte) (s : State) :
    (isPending s q = true ∧ resolve q rc data warn0 s =
        emitRecords (freeSlot s q) [[0x03, q, rc, warn0 ||| responseWarning rc] ++ lengthBytes data.length ++ data])
      ∨ (isPending s q = false ∧ resolve q rc data warn0 s = emitRecords s [[0x0A, q, warn0]]) := by
  unfold resolve unmatchedResponse
  cases h : isPending s q <;> simp [eventRecord]

/-- A SEND that holds (R124). -/
theorem holdsSend_send (flags did cid : Byte) (p : List Byte) (s : State) :
    holdsSend (.send flags did cid p) s = true ↔
      p.length ≤ s.cfg.maxTxPayload.val ∧ isPending s s.seqCtr = true ∧ s.cfg.allocPolicy = .block := by
  simp [holdsSend, and_assoc]

end Sys2Proof.Machine
end

