-- ==== Sys2Proof/Laws/Codec.lean ====
section
/-! SUPPORT. What the shared operations of the codec, the framer and the dispatcher can do. -/

namespace Sys2Proof.Machine

/-! ### Escape -/

/-- The markers (30_encoding.md R55). -/
theorem isMarker_iff (b : Byte) : isMarker b = true ↔ b = 0x8D ∨ b = 0xD8 ∨ b = 0xAB := by
  simp [isMarker, startByte, endByte, escapeByte, or_assoc]

@[simp] theorem escape_nil : escape [] = [] := rfl

@[simp] theorem escape_cons (b : Byte) (l : List Byte) : escape (b :: l) = escEnc b ++ escape l := rfl

@[simp] theorem escape_append (l m : List Byte) : escape (l ++ m) = escape l ++ escape m := by
  simp [escape]

/-- The escape of a byte (40_byte_codec.md R80). -/
theorem escEnc_cases (b : Byte) :
    (b = 0x8D ∧ escEnc b = [0xAB, 0x05]) ∨ (b = 0xD8 ∧ escEnc b = [0xAB, 0x50]) ∨ (b = 0xAB ∧ escEnc b = [0xAB, 0x23])
      ∨ (isMarker b = false ∧ escEnc b = [b]) := by
  cases h : isMarker b
  · simp [escEnc, h]
  · rcases (isMarker_iff b).1 h with rfl | rfl | rfl <;> decide

/-- The first escaped form of a list is told apart from the rest: no byte's form begins another's
(40_byte_codec.md R80). -/
theorem escEnc_append_injective {a b : Byte} {x y : List Byte} (h : escEnc a ++ x = escEnc b ++ y) :
    a = b ∧ x = y := by
  have hesc : ∀ c : Byte, isMarker c = false → c ≠ 0xAB#8 := by
    rintro c h rfl
    revert h
    decide
  rcases escEnc_cases a with ⟨rfl, e⟩ | ⟨rfl, e⟩ | ⟨rfl, e⟩ | ⟨ha, e⟩ <;>
    rcases escEnc_cases b with ⟨rfl, e'⟩ | ⟨rfl, e'⟩ | ⟨rfl, e'⟩ | ⟨hb, e'⟩ <;>
    simp only [e, e'] at h <;> simp at h ⊢
  all_goals first
    | exact h
    | simpa using h
    | exact absurd h.1 (hesc _ ha)
    | exact absurd h.1.symm (hesc _ hb)

/-- Different lists have different escapes. -/
theorem escape_injective {l m : List Byte} (h : escape l = escape m) : l = m := by
  induction l generalizing m with
  | nil =>
      cases m with
      | nil => rfl
      | cons b m => rcases escEnc_cases b with ⟨_, e⟩ | ⟨_, e⟩ | ⟨_, e⟩ | ⟨_, e⟩ <;> simp [e] at h
  | cons a l ih =>
      cases m with
      | nil => rcases escEnc_cases a with ⟨_, e⟩ | ⟨_, e⟩ | ⟨_, e⟩ | ⟨_, e⟩ <;> simp [e] at h
      | cons b m =>
          obtain ⟨rfl, h2⟩ := escEnc_append_injective h
          rw [ih h2]

/-- A frame determines its five inputs (41_framer.md R102). -/
theorem frame_injective {f d c q f' d' c' q' : Byte} {p p' : List Byte}
    (h : frame f d c q p = frame f' d' c' q' p') : f = f' ∧ d = d' ∧ c = c' ∧ q = q' ∧ p = p' := by
  simp only [frame, List.append_assoc] at h
  have h1 := escape_injective (List.append_cancel_right (List.append_cancel_left h))
  simp [frameBody] at h1
  obtain ⟨rfl, rfl, rfl, rfl, h2, -⟩ := h1
  exact ⟨rfl, rfl, rfl, rfl, h2⟩

/-! ### The checksum -/

@[simp] theorem sum8_nil : sum8 [] = 0 := rfl

@[simp] theorem sum8_cons (b : Byte) (l : List Byte) : sum8 (b :: l) = b + sum8 l := rfl

@[simp] theorem sum8_append (l m : List Byte) : sum8 (l ++ m) = sum8 l + sum8 m := by
  induction l with
  | nil => simp
  | cons b l ih => simp [ih, BitVec.add_assoc]

/-- The byte sum is the exact sum mod 256 (00_scope.md R9). -/
theorem sum8_toNat (l : List Byte) : (sum8 l).toNat = (l.map BitVec.toNat).sum % 256 := by
  induction l with
  | nil => rfl
  | cons b l ih => simp [ih]

/-! ### Storing a byte -/

/-- What storing a decoded byte does (40_byte_codec.md R88, R89). -/
theorem storeByte_eq (b : Byte) (s : State) :
    storeByte b s =
      if s.rxBuf.length < s.cfg.rxBufMax then { s with rxBuf := s.rxBuf ++ [b], rxState := .inPacket }
      else { s with rxBuf := [], rxState := .idle, evLog := s.evLog ++ [[0x0B, 0x03]] } := by
  unfold storeByte
  split <;> rfl

/-! ### Packets -/

/-- A packet that has a checksum is sliced by its class (30_encoding.md R69). -/
theorem decodePacket_append (c : Config) (h : Header) (body : List Byte) (chk : Byte) :
    decodePacket c (h.bytes ++ body ++ [chk]) = slicePacket (classify c h.did h.cid h.seq) h body chk := by
  simp [Header.bytes, decodePacket]

/-- A packet below five bytes has no slicing (41_framer.md R105). -/
theorem decodePacket_of_length_lt (c : Config) {l : List Byte} (h : l.length < 5) : decodePacket c l = none := by
  match l, h with
  | [], _ => rfl
  | [_], _ => rfl
  | [_, _], _ => rfl
  | [_, _, _], _ => rfl
  | [_, _, _, _], _ => rfl

/-- A byte list of five bytes or more is a header, a body and a checksum (30_encoding.md R59). -/
theorem exists_packet_parts {l : List Byte} (h : 5 ≤ l.length) :
    ∃ (hd : Header) (body : List Byte) (chk : Byte), l = hd.bytes ++ body ++ [chk] := by
  match l, h with
  | f :: d :: c :: q :: x :: rest, _ =>
      refine ⟨⟨f, d, c, q⟩, (x :: rest).dropLast, (x :: rest).getLast (by simp), ?_⟩
      rw [List.append_assoc, List.dropLast_append_getLast]
      rfl

/-- A record that is neither SEND_ACCEPTED nor the completion of a request (30_encoding.md R73). -/
def PlainRecord (record : List Byte) : Prop :=
  record.head? ≠ some 0x01 ∧ record.head? ≠ some 0x03 ∧ record.head? ≠ some 0x04

/-- The RESPONSE record of number `q` begins with its code and `q` (30_encoding.md R73). -/
def ResponseRecord (q : Byte) (record : List Byte) : Prop := record.take 2 = [0x03, q]

/-- Every packet class gives a next state with one record more; only a SYNC packet's slot can change
(43_dispatcher.md R140, R149). -/
theorem dispatchPacket_cases (p : Packet) (s : State) :
    (∃ record, PlainRecord record ∧ dispatchPacket p s = .next (emitRecords s [record]))
      ∨ ∃ q record, isPending s q = true ∧ ResponseRecord q record
          ∧ dispatchPacket p s = .next (emitRecords (freeSlot s q) [record]) := by
  cases p with
  | telemetry h data chk =>
      refine .inl ⟨_, ?_, rfl⟩
      unfold telemetryEvent
      split <;> simp [eventRecord, PlainRecord]
  | collision h data chk =>
      left
      simp only [dispatchPacket, execPktCollision]
      split <;> exact ⟨_, by simp [eventRecord, PlainRecord], rfl⟩
  | sleepWarning h data chk => exact .inl ⟨_, by simp [eventRecord, PlainRecord], rfl⟩
  | sleeping h data chk => exact .inl ⟨_, by simp [eventRecord, PlainRecord], rfl⟩
  | sync h rc data chk =>
      simp only [dispatchPacket, execPktSync]
      rcases resolve_cases h.seq rc data (checksumWarning (h.bytes ++ rc :: data) chk) s with ⟨hp, he⟩ | ⟨_, he⟩
      · rw [he]
        exact .inr ⟨h.seq, _, hp, by simp [ResponseRecord], rfl⟩
      · rw [he]
        exact .inl ⟨_, by simp [PlainRecord], rfl⟩

/-- Closing a packet gives a next state with one record more; only a SYNC packet's slot can change
(41_framer.md R105). -/
theorem closePacket_cases (l : List Byte) (s : State) :
    (∃ record, PlainRecord record ∧ closePacket l s = .next (emitRecords s [record]))
      ∨ ∃ q record, isPending s q = true ∧ ResponseRecord q record
          ∧ closePacket l s = .next (emitRecords (freeSlot s q) [record]) := by
  unfold closePacket
  split
  · exact dispatchPacket_cases _ s
  · exact .inl ⟨_, by simp [eventRecord, PlainRecord], rfl⟩

/-! ### Received bytes -/

/-- What a received byte can do (40_byte_codec.md R82 to R89, log 7): a new decoder state and buffer with at most one
MALFORMED record, or the close of a packet. -/
theorem execRxByte_cases (b : Byte) (s : State) :
    (∃ r buf new, execRxByte b s = .next { s with rxState := r, rxBuf := buf, evLog := s.evLog ++ new }
      ∧ (new = [] ∨ new = [[0x0B, 0x02]] ∨ new = [[0x0B, 0x03]]))
      ∨ (s.rxState = .inPacket ∧ b = 0xD8
          ∧ execRxByte b s = closePacket s.rxBuf { s with rxState := .idle, rxBuf := [] }) := by
  cases hs : s.rxState with
  | idle =>
      left
      by_cases hb : b = startByte
      · refine ⟨.inPacket, [], [], ?_, .inl rfl⟩
        simp [execRxByte, rxDecode, hs, hb, execRxIdleStart, setRxState, rxClear]
      · refine ⟨s.rxState, s.rxBuf, [], ?_, .inl rfl⟩
        simp [execRxByte, rxDecode, hs, hb, execRxIdleOther]
        simp [← hs]
  | inPacket =>
      by_cases h1 : b = startByte
      · left
        by_cases h : 0 < s.rxBuf.length
        · refine ⟨.inPacket, [], [[0x0B, 0x02]], ?_, .inr (.inl rfl)⟩
          simp [execRxByte, rxDecode, hs, h1, execRxInStart, h, setRxState, rxClear, emitRecords, eventRecord,
            malformedCode]
        · refine ⟨.inPacket, [], [], ?_, .inl rfl⟩
          simp [execRxByte, rxDecode, hs, h1, execRxInStart, h, setRxState, rxClear]
      · by_cases h2 : b = endByte
        · right
          refine ⟨rfl, h2, ?_⟩
          simp [execRxByte, rxDecode, hs, h2, execRxInEnd, setRxState, rxClear, startByte, endByte]
        · left
          by_cases h3 : b = escapeByte
          · refine ⟨.escPending, s.rxBuf, [], ?_, .inl rfl⟩
            simp [execRxByte, rxDecode, hs, h3, execRxInEscape, setRxState, startByte, endByte, escapeByte]
          · have hm : isMarker b = false := by simp [isMarker, h1, h2, h3]
            simp only [execRxByte, rxDecode, hs, h1, h2, h3, if_false, execRxInData, hm, and_self, if_true,
              storeByte_eq]
            split
            · exact ⟨.inPacket, s.rxBuf ++ [b], [], by simp, .inl rfl⟩
            · exact ⟨.idle, [], [[0x0B, 0x03]], by simp, .inr (.inr rfl)⟩
  | escPending =>
      left
      simp only [execRxByte, rxDecode, hs, execRxEscAny, if_true, storeByte_eq]
      split
      · exact ⟨.inPacket, s.rxBuf ++ [b ||| decodeMaskByte], [], by simp, .inl rfl⟩
      · exact ⟨.idle, [], [[0x0B, 0x03]], by simp, .inr (.inr rfl)⟩

/-- RX_BYTE always gives a next state (40_byte_codec.md R82: the decoder itself never fails). -/
theorem execRxByte_next (b : Byte) (s : State) : ∃ t, execRxByte b s = .next t := by
  rcases execRxByte_cases b s with ⟨_, _, _, h, _⟩ | ⟨_, _, h⟩
  · exact ⟨_, h⟩
  · rcases closePacket_cases s.rxBuf { s with rxState := .idle, rxBuf := [] } with ⟨_, _, hc⟩ | ⟨_, _, _, _, hc⟩
    · exact ⟨_, h.trans hc⟩
    · exact ⟨_, h.trans hc⟩

/-! ### Unescape -/

@[simp] theorem unescape_nil (s : State) : unescape [] s = ([], s.rxState) := rfl

/-- The first byte of a stream (40_byte_codec.md R90). -/
theorem unescape_cons {b : Byte} {s t : State} (h : execRxByte b s = .next t) (l : List Byte) :
    unescape (b :: l) s = (appendedBytes s t ++ (unescape l t).1, (unescape l t).2) := by
  simp only [unescape, h]

@[simp] theorem appendedBytes_of_append {s t : State} {l : List Byte} (h : t.rxBuf = s.rxBuf ++ l) :
    appendedBytes s t = l := by simp [appendedBytes, h]

@[simp] theorem appendedBytes_of_cleared {s t : State} (h : t.rxBuf = []) : appendedBytes s t = [] := by
  simp [appendedBytes, h]

end Sys2Proof.Machine
end

