-- ==== Sys2Proof/Laws/Decode.lean ====
section
/-! SUPPORT. Words and their bytes (00_scope.md R9). -/

namespace Sys2Proof

/-- The word of a word's bytes. -/
theorem wordOfBytes_extract (w : Word) :
    wordOfBytes (w.extractLsb' 24 8) (w.extractLsb' 16 8) (w.extractLsb' 8 8) (w.extractLsb' 0 8) = w := by
  apply BitVec.eq_of_getLsbD_eq
  intro i hi
  simp only [wordOfBytes, BitVec.getLsbD_append, BitVec.getLsbD_extractLsb']
  have h1 : i < 8 ∨ i - 8 < 8 ∨ i - 8 - 8 < 8 ∨ i - 8 - 8 - 8 < 8 := by omega
  by_cases h8 : i < 8
  · simp [h8]
  · by_cases h16 : i - 8 < 8
    · simp [h8, h16]; congr 1; omega
    · by_cases h24 : i - 8 - 8 < 8
      · simp [h8, h16, h24]; congr 1; omega
      · have h32 : i - 8 - 8 - 8 < 8 := by omega
        simp [h8, h16, h24, h32]; congr 1; omega

/-- The bytes of a word decode as its header. -/
theorem decode_bytesOfWord (w : Word) (rest : List Byte) : decode (bytesOfWord w ++ rest) = decodeHeader w rest := by
  simp [decode, bytesOfWord, wordOfBytes_extract]

/-- A mask's operand word. -/
theorem decodeMask_bytesOfWord (mk : Word → Instr) (m : Word) (rest : List Byte) :
    decodeMask mk (bytesOfWord m ++ rest) = .event (mk m) rest := by
  simp [decodeMask, bytesOfWord, wordOfBytes_extract]

/-- Four bytes are the bytes of a word. -/
theorem bytesOfWord_wordOfBytes (a b c d : Byte) : bytesOfWord (wordOfBytes a b c d) = [a, b, c, d] := by
  simp only [bytesOfWord, wordOfBytes, List.cons.injEq, and_true]
  refine ⟨?_, ?_, ?_, ?_⟩ <;>
    (apply BitVec.eq_of_getLsbD_eq; intro i hi
     simp only [BitVec.getLsbD_extractLsb', BitVec.getLsbD_append])
  · simp [hi, show ¬ 24 + i < 8 by omega, show ¬ 24 + i - 8 < 8 by omega, show ¬ 24 + i - 8 - 8 < 8 by omega,
      show 24 + i - 8 - 8 - 8 = i by omega]
  · simp [hi, show ¬ 16 + i < 8 by omega, show ¬ 16 + i - 8 < 8 by omega, show 16 + i - 8 - 8 = i by omega]
  · simp [hi, show ¬ 8 + i < 8 by omega]
  · simp [hi]

/-! ### Bits of concatenations -/

/-- Bits that lie in the left part. -/
theorem extractLsb'_append_of_le {m n : Nat} (x : BitVec m) (y : BitVec n) {k l : Nat} (h : n ≤ k) :
    (x ++ y).extractLsb' k l = x.extractLsb' (k - n) l := by
  apply BitVec.eq_of_getLsbD_eq
  intro i hi
  simp [BitVec.getLsbD_append, hi, show ¬ k + i < n by omega, show k + i - n = k - n + i by omega]

/-- Bits that lie in the right part. -/
theorem extractLsb'_append_of_add_le {m n : Nat} (x : BitVec m) (y : BitVec n) {k l : Nat} (h : k + l ≤ n) :
    (x ++ y).extractLsb' k l = y.extractLsb' k l := by
  apply BitVec.eq_of_getLsbD_eq
  intro i hi
  simp [BitVec.getLsbD_append, hi, show k + i < n by omega]

/-- A bit vector is its high part and its low part. -/
theorem extractLsb'_append_extractLsb' {k m : Nat} (w : BitVec (k + m)) :
    w.extractLsb' m k ++ w.extractLsb' 0 m = w := by
  apply BitVec.eq_of_getLsbD_eq
  intro i hi
  simp only [BitVec.getLsbD_append, BitVec.getLsbD_extractLsb']
  by_cases h : i < m
  · simp [h]
  · simp [h, show i - m < k by omega, show m + (i - m) = i by omega]

/-- The operation code of a header word (30_encoding.md R60). -/
theorem wordOfBytes_op (a b c d : Byte) : (wordOfBytes a b c d).extractLsb' 28 4 = a.extractLsb' 4 4 := by
  unfold wordOfBytes
  rw [extractLsb'_append_of_le _ _ (by decide), extractLsb'_append_of_le _ _ (by decide),
    extractLsb'_append_of_le _ _ (by decide)]

/-- The must-be-zero bits below a SEND's operation code (30_encoding.md R61). -/
theorem wordOfBytes_low_of_first (a b c d : Byte) :
    (wordOfBytes a b c d).extractLsb' 24 4 = a.extractLsb' 0 4 := by
  unfold wordOfBytes
  rw [extractLsb'_append_of_le _ _ (by decide), extractLsb'_append_of_le _ _ (by decide),
    extractLsb'_append_of_le _ _ (by decide)]

/-- The upper half of a word (30_encoding.md R61). -/
theorem wordOfBytes_upper (a b c d : Byte) : (wordOfBytes a b c d).extractLsb' 16 16 = a ++ b := by
  unfold wordOfBytes
  rw [extractLsb'_append_of_le _ _ (by decide), extractLsb'_append_of_le _ _ (by decide)]
  simp

/-- The lower half of a word (30_encoding.md R61). -/
theorem wordOfBytes_lower (a b c d : Byte) : (wordOfBytes a b c d).extractLsb' 0 16 = c ++ d := by
  apply BitVec.eq_of_getLsbD_eq
  intro i hi
  simp only [wordOfBytes, BitVec.getLsbD_append, BitVec.getLsbD_extractLsb', hi, Nat.zero_add]
  by_cases h : i < 8
  · simp [h]
  · simp [h, show i - 8 < 8 by omega]

/-! ### Keys and classes -/

/-- The key {RX_STATE, B} selects the row of the decode table (30_encoding.md R67). -/
theorem decodeRxKey_encodeRxKey (st : RxState) (b : Byte) :
    decodeRxKey (encodeRxKey st b) = some (rxDecode st b) := by
  have h1 : (encodeRxKey st b).extractLsb' 8 2 = rxStateCode st := by
    unfold encodeRxKey
    rw [extractLsb'_append_of_le _ _ (by decide)]
    simp
  have h2 : (encodeRxKey st b).extractLsb' 0 8 = b := by
    simpa [encodeRxKey] using extractLsb'_append_of_add_le (rxStateCode st) b (k := 0) (l := 8) (by decide)
  unfold decodeRxKey
  rw [h1, h2]
  cases st <;> rfl

/-- The classifier in the terms of the well-formedness checks (30_encoding.md R68). -/
theorem classify_eq (c : Config) (h : Header) :
    classify c h.did h.cid h.seq =
      if h.fitsTelemetry c then .telemetry
      else if h.fitsCollision c then .collision
      else if h.fitsSleepWarning c then .sleepWarning
      else if h.fitsSleeping c then .sleeping
      else .sync := by
  have key : ∀ p : PacketId, ((⟨h.did, h.cid⟩ : PacketId) = p) ↔ (h.did = p.did ∧ h.cid = p.cid) := by
    intro p
    cases p
    simp
  simp [classify, Header.fitsTelemetry, Header.fitsCollision, Header.fitsSleepWarning, Header.fitsSleeping,
    Header.hasId, Header.hasSentinel, key]

end Sys2Proof
end

