-- ==== Sys2Proof/Laws/Exec.lean ====
section
/-! SUPPORT. What one instruction can do, said once for all of them: the cases of `exec` where it gives a next
state. -/

namespace Sys2Proof.Machine

/-- A decoder state and buffer that a receive-side instruction may leave (10_state.md R22, 20_memory.md R45). -/
def BufferStep (s : State) (r : RxState) (buf : List Byte) : Prop :=
  (r = s.rxState ∧ buf = s.rxBuf) ∨ buf = [] ∨ (r ≠ .idle ∧ (buf = s.rxBuf ∨ buf.length ≤ s.cfg.rxBufMax))

/-- What a received byte, a row of the received-byte table or a packet class can do: a new decoder state and buffer
with at most one plain record, or one slot freed with its RESPONSE (10_state.md R33). -/
def ReceiveEffect (s t : State) : Prop :=
  ∃ r buf, BufferStep s r buf
    ∧ ((∃ records, (records = [] ∨ ∃ record, records = [record] ∧ PlainRecord record)
          ∧ t = { s with rxState := r, rxBuf := buf, evLog := s.evLog ++ records })
      ∨ ∃ q record, isPending s q = true ∧ ResponseRecord q record
          ∧ t = { freeSlot s q with rxState := r, rxBuf := buf, evLog := s.evLog ++ [record] })

/-- The receive side of the instruction set: RX_BYTE, the rows of RX_DECODE and those of PACKET_CLASS. -/
def onReceiveSide : Instr → Bool
  | .send _ _ _ _ => false
  | .setMask1 _ => false
  | .setMask2 _ => false
  | .rxByte _ => true
  | .tick => false
  | .reset => false
  | .reservedOp0 _ => false
  | .reservedOp7 _ => false
  | .reservedOp8F _ => false
  | .rxIdleStart => true
  | .rxIdleOther _ => true
  | .rxInStart => true
  | .rxInEnd => true
  | .rxInEscape => true
  | .rxInData _ => true
  | .rxEscAny _ => true
  | .pktTelemetry _ _ _ => true
  | .pktCollision _ _ _ => true
  | .pktSleepWarning _ _ _ => true
  | .pktSleeping _ _ _ => true
  | .pktSync _ _ _ _ => true

/-- A state that differs in nothing is a receive effect. -/
theorem ReceiveEffect.refl (s : State) : ReceiveEffect s s :=
  ⟨s.rxState, s.rxBuf, .inl ⟨rfl, rfl⟩, .inl ⟨[], .inl rfl, by simp⟩⟩

/-- A new decoder state and buffer with no record. -/
theorem ReceiveEffect.silent {s : State} {r : RxState} {buf : List Byte} (h : BufferStep s r buf) :
    ReceiveEffect s { s with rxState := r, rxBuf := buf } :=
  ⟨r, buf, h, .inl ⟨[], .inl rfl, by simp⟩⟩

/-- One plain record on the way. -/
theorem ReceiveEffect.plain {s : State} {r : RxState} {buf : List Byte} (h : BufferStep s r buf)
    {record : List Byte} (hr : PlainRecord record) :
    ReceiveEffect s { s with rxState := r, rxBuf := buf, evLog := s.evLog ++ [record] } :=
  ⟨r, buf, h, .inl ⟨_, .inr ⟨_, rfl, hr⟩, rfl⟩⟩

/-- Storing a byte. -/
theorem storeByte_effect (b : Byte) (s : State) : ReceiveEffect s (storeByte b s) := by
  rw [storeByte_eq]
  split
  · exact .silent (.inr (.inr ⟨by simp, .inr (by simp; omega)⟩))
  · exact .plain (.inr (.inl rfl)) (by simp [PlainRecord])

/-- Dispatching a packet. -/
theorem dispatchPacket_effect {p : Packet} {s t : State} (h : dispatchPacket p s = .next t) :
    ReceiveEffect s t := by
  rcases dispatchPacket_cases p s with ⟨record, hr, he⟩ | ⟨q, record, hq, hr, he⟩
  · rw [he] at h
    cases h
    exact .plain (.inl ⟨rfl, rfl⟩) hr
  · rw [he] at h
    cases h
    refine ⟨s.rxState, s.rxBuf, .inl ⟨rfl, rfl⟩, .inr ⟨q, record, hq, hr, ?_⟩⟩
    apply State.ext <;> simp

/-- Closing the packet in the buffer (40_byte_codec.md R86). -/
theorem closePacket_effect {s t : State}
    (h : closePacket s.rxBuf { s with rxState := .idle, rxBuf := [] } = .next t) : ReceiveEffect s t := by
  rcases closePacket_cases s.rxBuf { s with rxState := .idle, rxBuf := [] } with ⟨record, hr, he⟩ | ⟨q, record, hq, hr, he⟩
  · rw [he] at h
    cases h
    exact .plain (.inr (.inl rfl)) hr
  · rw [he] at h
    cases h
    refine ⟨.idle, [], .inr (.inl rfl), .inr ⟨q, record, hq, hr, ?_⟩⟩
    apply State.ext <;> simp
    unfold freeSlot setSlot slotAt
    split <;> rfl

/-- The rows of the received-byte table, each in every state. -/
theorem execRow_effect {row : RxRow} {s t : State} (h : exec row.toInstr s = .next t) : ReceiveEffect s t := by
  cases row with
  | idleStart =>
      simp only [RxRow.toInstr, exec, execRxIdleStart] at h
      split at h <;> cases h
      · exact .silent (r := .inPacket) (buf := []) (.inr (.inl rfl))
      · exact .refl s
  | idleOther b =>
      cases h
      exact .refl s
  | inStart =>
      simp only [RxRow.toInstr, exec, execRxInStart] at h
      split at h
      · cases h
        split
        · exact .plain (r := .inPacket) (buf := []) (.inr (.inl rfl)) (by simp [eventRecord, PlainRecord])
        · exact .silent (r := .inPacket) (buf := []) (.inr (.inl rfl))
      · cases h
        exact .refl s
  | inEnd =>
      simp only [RxRow.toInstr, exec, execRxInEnd] at h
      split at h
      · exact closePacket_effect h
      · cases h
        exact .refl s
  | inEscape =>
      simp only [RxRow.toInstr, exec, execRxInEscape] at h
      split at h <;> cases h
      · exact .silent (r := .escPending) (buf := s.rxBuf) (.inr (.inr ⟨by simp, .inl rfl⟩))
      · exact .refl s
  | inData b =>
      simp only [RxRow.toInstr, exec, execRxInData] at h
      split at h <;> cases h
      · exact storeByte_effect b s
      · exact .refl s
  | escAny b =>
      simp only [RxRow.toInstr, exec, execRxEscAny] at h
      split at h <;> cases h
      · exact storeByte_effect _ s
      · exact .refl s

/-- RX_BYTE is the row its key selects (30_encoding.md R67). -/
theorem execRxByte_eq (b : Byte) (s : State) : execRxByte b s = exec (rxDecode s.rxState b).toInstr s := by
  unfold execRxByte
  cases rxDecode s.rxState b <;> rfl

/-- The receive side, instruction by instruction. -/
theorem exec_effect {i : Instr} {s t : State} (hi : onReceiveSide i = true) (h : exec i s = .next t) :
    ReceiveEffect s t := by
  cases i with
  | send _ _ _ _ => cases hi
  | setMask1 _ => cases hi
  | setMask2 _ => cases hi
  | tick => cases hi
  | reset => cases hi
  | reservedOp0 _ => cases hi
  | reservedOp7 _ => cases hi
  | reservedOp8F _ => cases hi
  | rxByte b => exact execRow_effect ((execRxByte_eq b s).symm.trans h)
  | rxIdleStart => exact execRow_effect (row := .idleStart) h
  | rxIdleOther b => exact execRow_effect (row := .idleOther b) h
  | rxInStart => exact execRow_effect (row := .inStart) h
  | rxInEnd => exact execRow_effect (row := .inEnd) h
  | rxInEscape => exact execRow_effect (row := .inEscape) h
  | rxInData b => exact execRow_effect (row := .inData b) h
  | rxEscAny b => exact execRow_effect (row := .escAny b) h
  | pktTelemetry hd data chk => exact dispatchPacket_effect (p := .telemetry hd data chk) h
  | pktCollision hd data chk => exact dispatchPacket_effect (p := .collision hd data chk) h
  | pktSleepWarning hd data chk => exact dispatchPacket_effect (p := .sleepWarning hd data chk) h
  | pktSleeping hd data chk => exact dispatchPacket_effect (p := .sleeping hd data chk) h
  | pktSync hd rc data chk => exact dispatchPacket_effect (p := .sync hd rc data chk) h

/-- Everything an instruction can do where it gives a next state. -/
theorem exec_cases {i : Instr} {s t : State} (h : exec i s = .next t) :
    (onReceiveSide i = true ∧ ReceiveEffect s t)
      ∨ (∃ m, i = .setMask1 m ∧ t = { s with mask1 := m })
      ∨ (∃ m, i = .setMask2 m ∧ t = { s with mask2 := m })
      ∨ (i = .reset ∧ t = resetBlock s)
      ∨ (i = .tick ∧ t = emitRecords { s with slots := s.slots.map (tickSlot (timerWidth s.cfg)) }
          (timeoutRecords (timerWidth s.cfg) 0 s.slots.toList))
      ∨ (∃ flags did cid p, i = .send flags did cid p
          ∧ ((holdsSend i s = true ∧ t = s)
            ∨ (holdsSend i s = false ∧ isPending s s.seqCtr = true ∧ t = emitRecords s [[0x02, 0x01]])
            ∨ (holdsSend i s = false ∧ isPending s s.seqCtr = false ∧ t = acceptSend flags did cid p s))) := by
  cases hi : onReceiveSide i
  · right
    cases i with
    | send flags did cid p =>
        refine .inr (.inr (.inr (.inr ⟨flags, did, cid, p, rfl, ?_⟩)))
        rcases execSend_cases flags did cid p s with ⟨_, e⟩ | ⟨_, h2, h3, e⟩ | ⟨h1, h2, h3, e⟩ | ⟨_, h2, e⟩ <;>
          rw [show exec (.send flags did cid p) s = _ from e] at h <;> cases h
        · exact .inr (.inl ⟨by simp [holdsSend, h3], h2, rfl⟩)
        · exact .inl ⟨by simp [holdsSend, h1, h2, h3], rfl⟩
        · exact .inr (.inr ⟨by simp [holdsSend, h2], h2, rfl⟩)
    | setMask1 m => cases h; exact .inl ⟨m, rfl, rfl⟩
    | setMask2 m => cases h; exact .inr (.inl ⟨m, rfl, rfl⟩)
    | reset => cases h; exact .inr (.inr (.inl ⟨rfl, rfl⟩))
    | tick => cases h; exact .inr (.inr (.inr (.inl ⟨rfl, rfl⟩)))
    | reservedOp0 _ => cases h
    | reservedOp7 _ => cases h
    | reservedOp8F _ => cases h
    | rxByte _ => cases hi
    | rxIdleStart => cases hi
    | rxIdleOther _ => cases hi
    | rxInStart => cases hi
    | rxInEnd => cases hi
    | rxInEscape => cases hi
    | rxInData _ => cases hi
    | rxEscAny _ => cases hi
    | pktTelemetry _ _ _ => cases hi
    | pktCollision _ _ _ => cases hi
    | pktSleepWarning _ _ _ => cases hi
    | pktSleeping _ _ _ => cases hi
    | pktSync _ _ _ _ => cases hi
  · exact .inl ⟨rfl, exec_effect hi h⟩

end Sys2Proof.Machine
end

