-- ==== Sys2Proof/Laws/PerInstr.lean ====
section
/-! SUPPORT. A law of every instruction as syntax, one lemma for each row of spec/opcode_table.json: the encoding of
a well-formed instruction bears its row's `match` under its row's `mask`. -/

namespace Sys2Proof.Laws.TableRow

open Sys2Proof.Machine

/-- The number that the table's `mask` and `match` speak of: an event's header word (30_encoding.md R60), an
RX_DECODE key (R67), the key {did, cid, seq} of a packet (R68). -/
def key : Code → Word
  | .event bytes => be32 bytes 0
  | .rxKey k => k.setWidth 32
  | .packet bytes => 0#8 ++ byteAt bytes 1 ++ byteAt bytes 2 ++ byteAt bytes 3

/-- An identifier pair and a sequence number as a key. -/
def packetKey (p : PacketId) (seq : Byte) : Word := 0#8 ++ p.did ++ p.cid ++ seq

/-- The `match` and the `mask` of an instruction's row. -/
def row (c : Config) : Instr → Word × Word
  | .send _ _ _ _ => (0x10000000, 0xFF000000)
  | .setMask1 _ => (0x20000000, 0xFFFFFFFF)
  | .setMask2 _ => (0x30000000, 0xFFFFFFFF)
  | .rxByte _ => (0x40000000, 0xFFFFFF00)
  | .tick => (0x50000000, 0xFFFFFFFF)
  | .reset => (0x60000000, 0xFFFFFFFF)
  | .reservedOp0 _ => (0x00000000, 0xF0000000)
  | .reservedOp7 _ => (0x70000000, 0xF0000000)
  | .reservedOp8F _ => (0x80000000, 0x80000000)
  | .rxIdleStart => (0x08D, 0x3FF)
  | .rxIdleOther _ => (0x000, 0x300)
  | .rxInStart => (0x18D, 0x3FF)
  | .rxInEnd => (0x1D8, 0x3FF)
  | .rxInEscape => (0x1AB, 0x3FF)
  | .rxInData _ => (0x100, 0x300)
  | .rxEscAny _ => (0x200, 0x300)
  | .pktTelemetry _ _ _ => (packetKey c.telemId 0xFF, 0xFFFFFF)
  | .pktCollision _ _ _ => (packetKey c.collisionId 0x00, 0xFFFF00)
  | .pktSleepWarning _ _ _ => (packetKey c.sleepWarnId 0xFF, 0xFFFFFF)
  | .pktSleeping _ _ _ => (packetKey c.sleepingId 0xFF, 0xFFFFFF)
  | .pktSync _ _ _ _ => (0x000000, 0x000000)

/-- The encoding bears the row's `match` under its `mask`. -/
def Statement (i : Instr) : Prop := ∀ c : Config, i.WellFormed c → key (encode i) &&& (row c i).2 = (row c i).1

/-- The header word of an event's bytes. -/
theorem key_event (w : Word) (rest : List Byte) : key (.event (bytesOfWord w ++ rest)) = w := by
  have h := wordOfBytes_extract w
  simpa [key, be32, byteAt, bytesOfWord, wordOfBytes] using h

/-- The header word of an event of one word. -/
theorem key_event_word (w : Word) : key (.event (bytesOfWord w)) = w := by
  simpa using key_event w []

/-- Two words agree under a mask where they agree bit by bit. -/
theorem and_eq_of_bits {w m v : Word} (h : ∀ i < 32, (w.getLsbD i && m.getLsbD i) = v.getLsbD i) : w &&& m = v := by
  apply BitVec.eq_of_getLsbD_eq
  intro i hi
  rw [BitVec.getLsbD_and]
  exact h i hi

/-- The key of a packet that bears an identifier pair and a sequence number. -/
theorem key_and_eq (x p : Word) (h : x = p) (hp : p &&& 0xFFFFFF = p) : x &&& 0xFFFFFF = p := h ▸ hp

/-- A packet key fits in 24 bits. -/
theorem packetKey_and (p : PacketId) (q : Byte) : packetKey p q &&& 0xFFFFFF = packetKey p q := by
  apply and_eq_of_bits
  intro i hi
  simp only [packetKey, BitVec.getLsbD_append]
  interval_cases i <;> simp

theorem send (flags did cid : Byte) (p : List Byte) : Statement (.send flags did cid p) := by
  intro c _
  simp only [encode, encodeSend, List.append_assoc, key_event, row]
  apply and_eq_of_bits
  intro i hi
  simp only [BitVec.getLsbD_append]
  interval_cases i <;> simp

theorem setMask1 (m : Word) : Statement (.setMask1 m) := by
  intro c _
  simp [encode, key_event, row]

theorem setMask2 (m : Word) : Statement (.setMask2 m) := by
  intro c _
  simp [encode, key_event, row]

theorem rxByte (b : Byte) : Statement (.rxByte b) := by
  intro c _
  simp only [encode, key_event_word, row]
  apply and_eq_of_bits
  intro i hi
  simp only [BitVec.getLsbD_append]
  interval_cases i <;> simp

theorem tick : Statement .tick := by
  intro c _
  simp [encode, key_event_word, row]

theorem reset : Statement .reset := by
  intro c _
  simp [encode, key_event_word, row]

theorem reservedOp0 (r : BitVec 28) : Statement (.reservedOp0 r) := by
  intro c _
  simp only [encode, key_event_word, row]
  apply and_eq_of_bits
  intro i hi
  simp only [BitVec.getLsbD_append]
  interval_cases i <;> simp

theorem reservedOp7 (r : BitVec 28) : Statement (.reservedOp7 r) := by
  intro c _
  simp only [encode, key_event_word, row]
  apply and_eq_of_bits
  intro i hi
  simp only [BitVec.getLsbD_append]
  interval_cases i <;> simp

theorem reservedOp8F (r : BitVec 31) : Statement (.reservedOp8F r) := by
  intro c _
  simp only [encode, key_event_word, row]
  apply and_eq_of_bits
  intro i hi
  simp only [BitVec.getLsbD_append]
  interval_cases i <;> simp

theorem rxIdleStart : Statement .rxIdleStart := by
  intro c _
  have h : (encodeRxKey .idle 0x8D).setWidth 32 &&& 0x3FF#32 = 0x08D#32 := by decide
  exact h

theorem rxIdleOther (b : Byte) : Statement (.rxIdleOther b) := by
  intro c _
  have h : ∀ b : Byte, (encodeRxKey .idle b).setWidth 32 &&& 0x300#32 = 0x000#32 := by decide
  exact h b

theorem rxInStart : Statement .rxInStart := by
  intro c _
  have h : (encodeRxKey .inPacket 0x8D).setWidth 32 &&& 0x3FF#32 = 0x18D#32 := by decide
  exact h

theorem rxInEnd : Statement .rxInEnd := by
  intro c _
  have h : (encodeRxKey .inPacket 0xD8).setWidth 32 &&& 0x3FF#32 = 0x1D8#32 := by decide
  exact h

theorem rxInEscape : Statement .rxInEscape := by
  intro c _
  have h : (encodeRxKey .inPacket 0xAB).setWidth 32 &&& 0x3FF#32 = 0x1AB#32 := by decide
  exact h

theorem rxInData (b : Byte) : Statement (.rxInData b) := by
  intro c _
  have h : ∀ b : Byte, (encodeRxKey .inPacket b).setWidth 32 &&& 0x300#32 = 0x100#32 := by decide
  exact h b

theorem rxEscAny (b : Byte) : Statement (.rxEscAny b) := by
  intro c _
  have h : ∀ b : Byte, (encodeRxKey .escPending b).setWidth 32 &&& 0x300#32 = 0x200#32 := by decide
  exact h b

theorem pktTelemetry (h : Header) (data : List Byte) (chk : Byte) : Statement (.pktTelemetry h data chk) := by
  intro c hw
  simp [Instr.WellFormed, Instr.check, Header.fitsTelemetry, Header.hasId, Header.hasSentinel] at hw
  refine key_and_eq _ _ ?_ (packetKey_and _ _)
  simp [encode, packetBytes, Header.bytes, key, byteAt, packetKey, row, hw]

theorem pktCollision (h : Header) (data : List Byte) (chk : Byte) : Statement (.pktCollision h data chk) := by
  intro c hw
  simp [Instr.WellFormed, Instr.check, Header.fitsCollision, Header.hasId] at hw
  have hk : key (encode (.pktCollision h data chk)) = 0#8 ++ c.collisionId.did ++ c.collisionId.cid ++ h.seq := by
    simp [encode, packetBytes, Header.bytes, key, byteAt, hw]
  rw [hk]
  apply and_eq_of_bits
  intro i hi
  simp only [row, packetKey, BitVec.getLsbD_append]
  interval_cases i <;> simp

theorem pktSleepWarning (h : Header) (data : List Byte) (chk : Byte) : Statement (.pktSleepWarning h data chk) := by
  intro c hw
  simp [Instr.WellFormed, Instr.check, Header.fitsSleepWarning, Header.hasId, Header.hasSentinel] at hw
  refine key_and_eq _ _ ?_ (packetKey_and _ _)
  simp [encode, packetBytes, Header.bytes, key, byteAt, packetKey, row, hw]

theorem pktSleeping (h : Header) (data : List Byte) (chk : Byte) : Statement (.pktSleeping h data chk) := by
  intro c hw
  simp [Instr.WellFormed, Instr.check, Header.fitsSleeping, Header.hasId, Header.hasSentinel] at hw
  refine key_and_eq _ _ ?_ (packetKey_and _ _)
  simp [encode, packetBytes, Header.bytes, key, byteAt, packetKey, row, hw]

theorem pktSync (h : Header) (rc : Byte) (data : List Byte) (chk : Byte) : Statement (.pktSync h rc data chk) := by
  intro c _
  simp [row]

end Sys2Proof.Laws.TableRow
end

