-- ==== Sys2Proof/Laws/Step.lean ====
section
/-! SUPPORT. What one step can do where it gives a next state (00_scope.md R4, log 5, log 6). -/

namespace Sys2Proof.Machine

/-- The turn passes, or an instruction is run from the state with its event and the choice taken. -/
theorem step_cases {s t : State} (h : step s = .next t) :
    ∃ p ports, s.sched = p :: ports
      ∧ (t = setSched s ports
        ∨ ∃ i rest, decode (portBytes s p) = .event i rest ∧ holdsSend i s = false
            ∧ exec i (setPortBytes (setSched s ports) p rest) = .next t) := by
  unfold step fetch at h
  split at h
  · cases h
  · rename_i u hu
    split at hu
    · cases hu
    · rename_i p ports hs
      split at hu
      · cases hu; cases h; exact ⟨p, ports, hs, .inl rfl⟩
      · cases hu
      · split at hu <;> cases hu
        cases h
        exact ⟨p, ports, hs, .inl rfl⟩
  · cases h
  · rename_i i u hu
    split at hu
    · cases hu
    · rename_i p ports hs
      split at hu
      · cases hu
      · cases hu
      · rename_i j rest hd
        split at hu
        · cases hu
        · rename_i hh
          cases hu
          exact ⟨p, ports, hs, .inr ⟨_, rest, hd, by simpa using hh, h⟩⟩

end Sys2Proof.Machine
end

