-- ==== Sys2Proof/Laws/Safety.lean ====
section
/-! SUPPORT. The terms of Safety.lean: runs of one kind of input, new records, the warning byte, the invariant. -/

namespace Sys2Proof.Machine

/-! ### Runs of one kind of input -/

@[simp] theorem receive_nil (s : State) : receive [] s = .next s := rfl

/-- The first byte of a run of received bytes. -/
theorem receive_cons (b : Byte) (l : List Byte) (s : State) :
    receive (b :: l) s =
      match exec (.rxByte b) s with
      | .next t => receive l t
      | .fault r => .fault r
      | .refused r => .refused r := by
  cases h : exec (.rxByte b) s <;>
    simp only [receive, runScript, scriptLineInputs, List.flatMap_cons, List.flatMap_nil, List.map_cons,
      List.append_nil, runInputs, h]

/-- A run of received bytes in two parts (R47). -/
theorem receive_append {l m : List Byte} {s t : State} (h : receive l s = .next t) :
    receive (l ++ m) s = receive m t := by
  induction l generalizing s with
  | nil =>
      rw [receive_nil] at h
      cases h
      rfl
  | cons b l ih =>
      simp only [List.cons_append, receive_cons] at h ⊢
      split at h <;> first | exact ih h | cases h

/-- What a stream does to a state and what `unescape` reads off it, in two deliveries (40_byte_codec.md R90): the
second goes on from the state that the first leaves. -/
theorem unescape_append {l : List Byte} {s t : State} (h : receive l s = .next t) (m : List Byte) :
    unescape (l ++ m) s = ((unescape l s).1 ++ (unescape m t).1, (unescape m t).2) := by
  induction l generalizing s with
  | nil =>
      rw [receive_nil] at h
      cases h
      rfl
  | cons b l ih =>
      obtain ⟨u, hu⟩ := execRxByte_next b s
      have he : exec (.rxByte b) s = .next u := hu
      simp only [receive_cons, he] at h
      simp only [List.cons_append, unescape_cons hu, ih h, List.append_assoc]

@[simp] theorem ticks_zero (s : State) : ticks 0 s = .next s := rfl

/-- The first of several TICKs. -/
theorem ticks_succ (k : Nat) (s : State) :
    ticks (k + 1) s =
      match exec .tick s with
      | .next t => ticks k t
      | .fault r => .fault r
      | .refused r => .refused r := by
  cases h : exec .tick s <;>
    simp only [ticks, runScript, scriptLineInputs, List.flatMap_cons, List.flatMap_nil, List.replicate_succ,
      List.append_nil, runInputs, h]

/-! ### Records -/

/-- The new records of a run in two parts. -/
theorem newRecords_trans {s t u : State} (h1 : s.evLog <+: t.evLog) (h2 : t.evLog <+: u.evLog) :
    newRecords s u = newRecords s t ++ newRecords t u := by
  obtain ⟨a, h1⟩ := h1
  obtain ⟨b, h2⟩ := h2
  simp [newRecords, ← h2, ← h1]

/-- The new records where a run has only added some. -/
theorem newRecords_of_append {s t : State} {records : List (List Byte)} (h : t.evLog = s.evLog ++ records) :
    newRecords s t = records := by
  simp [newRecords, h]

/-- A record that is no completion. -/
theorem completes_of_plain {r : List Byte} (h : PlainRecord r) (q : Byte) : completes q r = false := by
  obtain ⟨_, h2, h3⟩ := h
  unfold completes
  match r with
  | [] => rfl
  | [x] => simp
  | x :: y :: l =>
      simp at h2 h3
      simp [h2, h3]

/-- The two ways the checksum is checked agree (41_framer.md R101, R106). -/
theorem checksumWarning_eq_warnOf (content : List Byte) (chk : Byte) :
    checksumWarning content chk = warnOf content chk := by
  unfold checksumWarning warnOf checksum
  have h1 : sum8 content + ~~~ sum8 content = 0xFF#8 := by simp
  have h2 : (~~~ sum8 content = chk) ↔ (sum8 content + chk = 0xFF#8) := by
    constructor
    · rintro rfl
      exact h1
    · intro h
      rw [← h1] at h
      exact ((BitVec.add_right_inj _).1 h).symm
  simp [h2]

/-! ### The invariant -/

/-- The invariant speaks of these fields alone. -/
theorem State.Inv.congr {s t : State} (h : s.Inv) (e1 : t.cfg = s.cfg) (e2 : t.rxState = s.rxState)
    (e3 : t.rxBuf = s.rxBuf) (e4 : t.seqCtr = s.seqCtr) (e5 : t.slots = s.slots) : t.Inv := by
  refine ⟨by rw [e2, e3]; exact h.1, by rw [e3, e1]; exact h.2, by rw [e4]; exact h.3, fun q hq => ?_⟩
  rw [slotAt_congr e5, e1]
  exact h.4 q ((isPending_congr e5 q).symm.trans hq)

end Sys2Proof.Machine
end

