-- ==== Sys2Proof/Tests/Slice0.lean ====
section
/-! SUPPORT. Tests. Expected results are those of 95_test_vectors.md (named by their ids) or calculated by hand from
the rule named, under the test configuration of 95_test_vectors.md §0. The last part holds one witness for the
hypotheses of each statement. -/

namespace Sys2Proof.Tests

open Sys2Proof Sys2Proof.Machine

/-! ### The test configuration and small states -/

/-- A field table of 95_test_vectors.md §0: three names, every other field reserved. -/
def testFields : Vector FieldDescriptor 32 :=
  (((Vector.replicate 32 ⟨"reserved", true⟩).set 18 ⟨"pitch", false⟩).set 17 ⟨"roll", false⟩).set 16 ⟨"yaw", false⟩

/-- The test configuration of 95_test_vectors.md §0. -/
def testConfig : Config where
  timeoutLess1 := 2
  tickPeriodLess1 := 0
  seqReset := 0
  allocPolicy := .failFast
  maxTxPayload := 32
  rxBufLess16 := 48
  telemId := ⟨0xE1, 0x01⟩
  collisionId := ⟨0xE1, 0x02⟩
  sleepWarnId := ⟨0xE1, 0x03⟩
  sleepingId := ⟨0xE1, 0x04⟩
  fields1 := testFields
  fields2 := Vector.replicate 32 ⟨"reserved", true⟩

/-- The block at power-on. -/
def base : State := State.powerOn testConfig

/-- The block with a policy of BLOCK. -/
def blocking : State := State.powerOn { testConfig with allocPolicy := .block }

/-- The block in IN_PACKET with these bytes collected. -/
def collecting (bytes : List Byte) : State := { base with rxState := .inPacket, rxBuf := bytes }

/-- The block in ESC_PENDING with these bytes collected. -/
def escaping (bytes : List Byte) : State := { base with rxState := .escPending, rxBuf := bytes }

/-- A slot made pending with some ticks left. -/
def withPending (q : Byte) (timer : Nat) (s : State) : State := setSlot s q ⟨true, timer⟩

/-- What a result leaves of its state. -/
def after {α : Type} (r : Result) (view : State → α) : Option α :=
  match r with
  | .next t => some (view t)
  | .fault _ => none
  | .refused _ => none

/-- The result is a next state. -/
def isNext (r : Result) : Bool :=
  match r with
  | .next _ => true
  | .fault _ => false
  | .refused _ => false

/-- The refusal, where the result is one. -/
def refusal? (r : Result) : Option Refusal :=
  match r with
  | .next _ => none
  | .fault _ => none
  | .refused e => some e

theorem exists_next {r : Result} (h : isNext r = true) : ∃ t, r = .next t := by
  cases r with
  | next t => exact ⟨t, rfl⟩
  | fault _ => cases h
  | refused _ => cases h

/-! ### WellFormed refuses an ill-formed term, for each check -/

theorem test_wf_payload_too_long : ¬ (Instr.send 0 0 0 (List.replicate 65536 0)).WellFormed testConfig := by
  have hl : (List.replicate 65536 (0 : Byte)).length = 65536 := List.length_replicate
  generalize List.replicate 65536 (0 : Byte) = p at hl
  simp [Instr.WellFormed, Instr.check, hl]
theorem test_wf_idle_other_start : ¬ (Instr.rxIdleOther 0x8D).WellFormed testConfig := by decide
theorem test_wf_data_start : ¬ (Instr.rxInData 0x8D).WellFormed testConfig := by decide
theorem test_wf_data_end : ¬ (Instr.rxInData 0xD8).WellFormed testConfig := by decide
theorem test_wf_data_escape : ¬ (Instr.rxInData 0xAB).WellFormed testConfig := by decide
theorem test_wf_telemetry_id : ¬ (Instr.pktTelemetry ⟨8, 0xE1, 2, 0xFF⟩ [] 0).WellFormed testConfig := by decide
theorem test_wf_telemetry_seq : ¬ (Instr.pktTelemetry ⟨8, 0xE1, 1, 5⟩ [] 0).WellFormed testConfig := by decide
theorem test_wf_telemetry_length :
    ¬ (Instr.pktTelemetry ⟨8, 0xE1, 1, 0xFF⟩ (List.replicate 60 0) 0).WellFormed testConfig := by decide
theorem test_wf_collision_id : ¬ (Instr.pktCollision ⟨8, 0xE1, 3, 0xFF⟩ [] 0).WellFormed testConfig := by decide
theorem test_wf_collision_is_telemetry :
    ¬ (Instr.pktCollision ⟨8, 0xE1, 1, 0xFF⟩ [] 0).WellFormed { testConfig with collisionId := ⟨0xE1, 1⟩ } := by decide
theorem test_wf_collision_length :
    ¬ (Instr.pktCollision ⟨8, 0xE1, 2, 0xFF⟩ (List.replicate 60 0) 0).WellFormed testConfig := by decide
theorem test_wf_sleep_warning_seq : ¬ (Instr.pktSleepWarning ⟨8, 0xE1, 3, 0⟩ [] 0).WellFormed testConfig := by decide
theorem test_wf_sleep_warning_is_telemetry :
    ¬ (Instr.pktSleepWarning ⟨8, 0xE1, 1, 0xFF⟩ [] 0).WellFormed { testConfig with sleepWarnId := ⟨0xE1, 1⟩ } := by
  decide
theorem test_wf_sleep_warning_is_collision :
    ¬ (Instr.pktSleepWarning ⟨8, 0xE1, 2, 0xFF⟩ [] 0).WellFormed { testConfig with sleepWarnId := ⟨0xE1, 2⟩ } := by
  decide
theorem test_wf_sleep_warning_length :
    ¬ (Instr.pktSleepWarning ⟨8, 0xE1, 3, 0xFF⟩ (List.replicate 60 0) 0).WellFormed testConfig := by decide
theorem test_wf_sleeping_seq : ¬ (Instr.pktSleeping ⟨8, 0xE1, 4, 0⟩ [] 0).WellFormed testConfig := by decide
theorem test_wf_sleeping_is_telemetry :
    ¬ (Instr.pktSleeping ⟨8, 0xE1, 1, 0xFF⟩ [] 0).WellFormed { testConfig with sleepingId := ⟨0xE1, 1⟩ } := by decide
theorem test_wf_sleeping_is_collision :
    ¬ (Instr.pktSleeping ⟨8, 0xE1, 2, 0xFF⟩ [] 0).WellFormed { testConfig with sleepingId := ⟨0xE1, 2⟩ } := by decide
theorem test_wf_sleeping_is_sleep_warning :
    ¬ (Instr.pktSleeping ⟨8, 0xE1, 3, 0xFF⟩ [] 0).WellFormed { testConfig with sleepingId := ⟨0xE1, 3⟩ } := by decide
theorem test_wf_sleeping_length :
    ¬ (Instr.pktSleeping ⟨8, 0xE1, 4, 0xFF⟩ (List.replicate 60 0) 0).WellFormed testConfig := by decide
theorem test_wf_sync_is_async :
    ¬ (Instr.pktSync ⟨8, 0xE1, 1, 0xFF⟩ 0 [] 0).WellFormed testConfig
      ∧ ¬ (Instr.pktSync ⟨8, 0xE1, 2, 7⟩ 0 [] 0).WellFormed testConfig
      ∧ ¬ (Instr.pktSync ⟨8, 0xE1, 3, 0xFF⟩ 0 [] 0).WellFormed testConfig
      ∧ ¬ (Instr.pktSync ⟨8, 0xE1, 4, 0xFF⟩ 0 [] 0).WellFormed testConfig := by decide
theorem test_wf_sync_length :
    ¬ (Instr.pktSync ⟨9, 0x13, 1, 1⟩ 0 (List.replicate 59 0) 0).WellFormed testConfig := by decide

/-! ### Decoding: a written word for every row of the table -/

/-- V-ENC-2, and one byte behind it. -/
theorem test_decode_send :
    decode [0x10, 0x0A, 0x13, 0x01, 0, 0, 0, 1, 0xD8, 0x50] = .event (.send 0x0A 0x13 0x01 [0xD8]) [0x50] := by decide
/-- R62, all bits of the mask told apart. -/
theorem test_decode_set_mask1 :
    decode [0x20, 0, 0, 0, 0x12, 0x34, 0x56, 0x78] = .event (.setMask1 0x12345678) [] := by decide
/-- V-ENC-4. -/
theorem test_decode_set_mask2 : decode [0x30, 0, 0, 0, 0, 0, 0, 1] = .event (.setMask2 1) [] := by decide
/-- V-ENC-5. -/
theorem test_decode_rx_byte : decode [0x40, 0, 0, 0x8D] = .event (.rxByte 0x8D) [] := by decide
/-- V-ENC-6. -/
theorem test_decode_tick : decode [0x50, 0, 0, 0] = .event .tick [] := by decide
/-- V-ENC-6. -/
theorem test_decode_reset : decode [0x60, 0, 0, 0] = .event .reset [] := by decide
/-- V-ENC-7. -/
theorem test_decode_reserved_op0 : decode [0, 0, 0, 1] = .event (.reservedOp0 1) [] := by decide
/-- V-ENC-7. -/
theorem test_decode_reserved_op7 : decode [0x7F, 0, 0, 0] = .event (.reservedOp7 0xF000000) [] := by decide
/-- V-ENC-7. -/
theorem test_decode_reserved_op8_f :
    decode [0xF0, 0, 0, 0] = .event (.reservedOp8F 0x70000000) []
      ∧ decode [0x80, 0, 0, 0] = .event (.reservedOp8F 0) [] := by decide
/-- V-ENC-8, V-ENC-9 and R62, R64, R65: a must-be-zero bit is set. -/
theorem test_decode_must_be_zero :
    decode [0x40, 0, 1, 0] = .reserved ∧ decode [0x11, 0x0A, 0x13, 0x0D, 0, 0, 0, 0] = .reserved
      ∧ decode [0x10, 0x0A, 0x13, 0x0D, 0, 1, 0, 0] = .reserved ∧ decode [0x28, 0, 0, 0, 0, 0, 0, 0] = .reserved
      ∧ decode [0x30, 0, 0, 1, 0, 0, 0, 0] = .reserved ∧ decode [0x50, 0, 0, 1] = .reserved
      ∧ decode [0x68, 0, 0, 0] = .reserved := by decide
/-- Log 6. -/
theorem test_decode_incomplete :
    decode [] = .incomplete ∧ decode [0x50, 0, 0] = .incomplete ∧ decode [0x10, 1, 2, 3, 0, 0, 0, 1] = .incomplete
      ∧ decode [0x20, 0, 0, 0, 0, 0, 0] = .incomplete := by decide
/-- The keys of R67 written out: state in bits 9 and 8, byte below. -/
theorem test_decode_rx_idle_start : decodeRxKey 0b0010001101 = some .idleStart := by decide
theorem test_decode_rx_idle_other : decodeRxKey 0b0011011000 = some (.idleOther 0xD8) := by decide
theorem test_decode_rx_in_start : decodeRxKey 0b0110001101 = some .inStart := by decide
theorem test_decode_rx_in_end : decodeRxKey 0b0111011000 = some .inEnd := by decide
theorem test_decode_rx_in_escape : decodeRxKey 0b0110101011 = some .inEscape := by decide
theorem test_decode_rx_in_data : decodeRxKey 0b0100000101 = some (.inData 0x05) := by decide
theorem test_decode_rx_esc_any : decodeRxKey 0b1011011000 = some (.escAny 0xD8) := by decide
/-- R93: no state has the code 11. -/
theorem test_decode_rx_state_11 : decodeRxKey 0b1110001101 = none := by decide
/-- R69: bytes of the packets of V-TEL-2, V-DSP-4, V-PKT-4, V-DSP-5 and V-COR-5. -/
theorem test_decode_pkt_telemetry :
    decodePacket testConfig [8, 0xE1, 1, 0xFF, 1, 2, 3, 0x10] = some (.telemetry ⟨8, 0xE1, 1, 0xFF⟩ [1, 2, 3] 0x10) := by
  decide
theorem test_decode_pkt_collision :
    decodePacket testConfig [8, 0xE1, 2, 5, 1, 2, 0x0C] = some (.collision ⟨8, 0xE1, 2, 5⟩ [1, 2] 0x0C) := by decide
theorem test_decode_pkt_sleep_warning :
    decodePacket testConfig [8, 0xE1, 3, 0xFF, 0x14] = some (.sleepWarning ⟨8, 0xE1, 3, 0xFF⟩ [] 0x14) := by decide
theorem test_decode_pkt_sleeping :
    decodePacket testConfig [8, 0xE1, 4, 0xFF, 0x13] = some (.sleeping ⟨8, 0xE1, 4, 0xFF⟩ [] 0x13) := by decide
theorem test_decode_pkt_sync :
    decodePacket testConfig [9, 0x13, 1, 1, 3, 1, 2, 0xDB] = some (.sync ⟨9, 0x13, 1, 1⟩ 3 [1, 2] 0xDB) := by decide
/-- V-PKT-2, V-PKT-3. -/
theorem test_decode_pkt_short :
    decodePacket testConfig [1, 2, 3, 4] = none ∧ decodePacket testConfig [9, 0x13, 0x0D, 0, 0xD6] = none := by decide

/-! ### The table's words at the interface -/

theorem test_table_words :
    decodeTableWord 32 0x10000000 = some (.send 0 0 0 []) ∧ decodeTableWord 32 0x20000000 = some (.setMask1 0)
      ∧ decodeTableWord 64 0x0000000530000000 = some (.setMask2 5) ∧ decodeTableWord 32 0x400000AB = some (.rxByte 0xAB)
      ∧ decodeTableWord 32 0x50000000 = some .tick ∧ decodeTableWord 32 0x60000000 = some .reset
      ∧ decodeTableWord 32 0 = some (.reservedOp0 0) ∧ decodeTableWord 32 0x70000000 = some (.reservedOp7 0)
      ∧ decodeTableWord 32 0x80000000 = some (.reservedOp8F 0) ∧ decodeTableWord 32 0x40000100 = none := by decide
theorem test_table_keys :
    decodeTableWord 16 0x08D = some .rxIdleStart ∧ decodeTableWord 16 0 = some (.rxIdleOther 0)
      ∧ decodeTableWord 16 0x18D = some .rxInStart ∧ decodeTableWord 16 0x1D8 = some .rxInEnd
      ∧ decodeTableWord 16 0x1AB = some .rxInEscape ∧ decodeTableWord 16 0x100 = some (.rxInData 0)
      ∧ decodeTableWord 16 0x200 = some (.rxEscAny 0) := by decide
theorem test_first_step_of_events :
    isNext (step (State.reset.withFetchWord 32 0x10000000)) = true
      ∧ isNext (step (State.reset.withFetchWord 32 0x20000000)) = true
      ∧ isNext (step (State.reset.withFetchWord 32 0x30000000)) = true
      ∧ isNext (step (State.reset.withFetchWord 32 0x40000000)) = true
      ∧ isNext (step (State.reset.withFetchWord 32 0x50000000)) = true
      ∧ isNext (step (State.reset.withFetchWord 32 0x60000000)) = true := by decide +kernel
theorem test_first_step_of_reserved :
    refusal? (step (State.reset.withFetchWord 32 0)) = some .reservedEncoding
      ∧ refusal? (step (State.reset.withFetchWord 32 0x70000000)) = some .reservedEncoding
      ∧ refusal? (step (State.reset.withFetchWord 32 0x80000000)) = some .reservedEncoding := by decide +kernel
theorem test_first_step_of_keys :
    after (step (State.reset.withFetchWord 16 0x08D)) (·.rxState) = some .inPacket
      ∧ after (step (State.reset.withFetchWord 16 0)) (·.rxState) = some .idle
      ∧ after (step (State.reset.withFetchWord 16 0x18D)) (·.rxState) = some .inPacket
      ∧ after (step (State.reset.withFetchWord 16 0x1D8)) (·.evLog) = some [[0x0B, 0x01]]
      ∧ after (step (State.reset.withFetchWord 16 0x1AB)) (·.rxState) = some .escPending
      ∧ after (step (State.reset.withFetchWord 16 0x100)) (·.rxBuf) = some [0x00]
      ∧ after (step (State.reset.withFetchWord 16 0x200)) (·.rxBuf) = some [0x88] := by decide +kernel
theorem test_first_step_of_packets :
    after (step (base.withFetchWord 24 0xE101FF)) (·.evLog) = some [[0x09, 0x01, 0, 0, 0, 0x0B]]
      ∧ after (step (base.withFetchWord 24 0xE10200)) (·.evLog) = some [[0x06, 1, 0, 0, 0, 0, 0, 0, 0, 0, 0, 0, 0, 0, 0]]
      ∧ after (step (base.withFetchWord 24 0xE103FF)) (·.evLog) = some [[0x07, 0x01]]
      ∧ after (step (base.withFetchWord 24 0xE104FF)) (·.evLog) = some [[0x08, 0x01]]
      ∧ after (step (base.withFetchWord 24 0)) (·.evLog) = some [[0x0A, 0x00, 0x01]] := by decide +kernel

/-! ### The meanings, one step each -/

/-- V-COR-1. -/
theorem test_send_accepted :
    after (exec (.send 0x0A 0x13 0x0D []) base)
        (fun t => (t.txLog, t.evLog, slotAt t 0, t.seqCtr)) =
      some ([0x8D, 0x0A, 0x13, 0x0D, 0x00, 0xD5, 0xD8], [[0x01, 0x00]], ⟨true, 3⟩, 1) := by decide
/-- V-COR-7 and V-COR-8: the counter wraps, and a busy slot is rejected. -/
theorem test_send_wraps_and_rejects :
    after (exec (.send 0x0A 0x13 0x0D []) { base with seqCtr := 254 }) (fun t => (t.evLog, t.seqCtr)) =
        some ([[0x01, 0xFE]], 0)
      ∧ after (exec (.send 0x0A 0x13 0x0D []) (withPending 0 3 base)) (fun t => (t.txLog, t.evLog, t.seqCtr)) =
        some ([], [[0x02, 0x01]], 0) := by decide
/-- V-ENC-3. -/
theorem test_set_mask1 :
    after (exec (.setMask1 0x00070000) { base with mask1 := 7, mask2 := 9 }) (fun t => (t.mask1, t.mask2)) =
      some (0x00070000, 9) := by decide
/-- V-ENC-4. -/
theorem test_set_mask2 :
    after (exec (.setMask2 1) { base with mask1 := 7, mask2 := 9 }) (fun t => (t.mask1, t.mask2)) = some (7, 1) := by
  decide
/-- V-COD-12 and V-COD-13: after ESCAPE a marker is data. -/
theorem test_rx_byte_escaped_markers :
    after (exec (.rxByte 0x8D) (escaping [])) (fun t => (t.rxState, t.rxBuf, t.evLog)) = some (.inPacket, [0x8D], [])
      ∧ after (exec (.rxByte 0xD8) (escaping [])) (fun t => (t.rxState, t.rxBuf, t.evLog)) =
        some (.inPacket, [0xD8], []) := by decide
/-- V-PKT-5: a whole packet at its END. -/
theorem test_rx_byte_end :
    after (exec (.rxByte 0xD8) (collecting [0x08, 0xE1, 0x03, 0xFF, 0x15])) (fun t => (t.rxState, t.rxBuf, t.evLog)) =
      some (.idle, [], [[0x07, 0x01]]) := by decide
/-- V-COR-10. -/
theorem test_tick :
    after (exec .tick (withPending 3 1 (withPending 7 2 base))) (fun t => (t.evLog, slotAt t 3, slotAt t 7, slotAt t 9)) =
      some ([[0x04, 0x03]], ⟨false, 0⟩, ⟨true, 1⟩, ⟨false, 0⟩) := by decide +kernel
/-- The ascending order of R127. -/
theorem test_tick_order :
    after (exec .tick (withPending 254 1 (withPending 0 1 (withPending 16 1 base)))) (·.evLog) =
      some [[0x04, 0x00], [0x04, 0x10], [0x04, 0xFE]] := by decide +kernel
/-- V-RST-1. -/
theorem test_reset :
    after (exec .reset (withPending 0 3 { collecting [1, 2, 3] with mask1 := 7, evLog := [[0x01, 0x00]] }))
        (fun t => ((t.rxState, t.rxBuf, t.seqCtr), slotAt t 0, t.mask1, t.evLog)) =
      some ((.idle, [], 0), ⟨false, 0⟩, 0, [[0x01, 0x00]]) := by decide
/-- V-ENC-7, V-ENC-10. -/
theorem test_refusals :
    refusal? (exec (.reservedOp0 5) base) = some .reservedEncoding
      ∧ refusal? (exec (.reservedOp7 5) base) = some .reservedEncoding
      ∧ refusal? (exec (.reservedOp8F 5) base) = some .reservedEncoding
      ∧ refusal? (exec (.send 0x0A 0x13 0x0D (List.replicate 33 0)) base) = some .payloadTooLong := by decide
theorem test_rx_idle_start : after (exec .rxIdleStart base) (·.rxState) = some .inPacket := by decide
/-- V-COD-7, V-COD-14: END and ESCAPE in IDLE. -/
theorem test_rx_idle_other :
    after (exec (.rxByte 0xD8) base) (fun t => (t.rxState, t.evLog)) = some (.idle, [])
      ∧ after (exec (.rxByte 0xAB) base) (fun t => (t.rxState, t.evLog)) = some (.idle, []) := by decide
/-- V-COD-10, V-COD-11. -/
theorem test_rx_in_start :
    after (exec .rxInStart (collecting [0x0A, 0xE1])) (fun t => (t.rxState, t.rxBuf, t.evLog)) =
        some (.inPacket, [], [[0x0B, 0x02]])
      ∧ after (exec .rxInStart (collecting [])) (fun t => (t.rxState, t.rxBuf, t.evLog)) = some (.inPacket, [], []) := by
  decide
/-- V-PKT-2, V-PKT-3. -/
theorem test_rx_in_end_short :
    after (exec .rxInEnd (collecting [1, 2, 3, 4])) (fun t => (t.rxState, t.rxBuf, t.evLog)) =
        some (.idle, [], [[0x0B, 0x01]])
      ∧ after (exec .rxInEnd (collecting [0x09, 0x13, 0x0D, 0x00, 0xD6])) (·.evLog) = some [[0x0B, 0x01]] := by decide
theorem test_rx_in_escape :
    after (exec .rxInEscape (collecting [1])) (fun t => (t.rxState, t.rxBuf)) = some (.escPending, [1]) := by decide
/-- V-COD-9: the byte that does not fit. -/
theorem test_rx_in_data :
    after (exec (.rxInData 0x11) (collecting (List.replicate 63 0x11))) (fun t => (t.rxState, t.rxBuf.length, t.evLog)) =
        some (.inPacket, 64, [])
      ∧ after (exec (.rxInData 0x11) (collecting (List.replicate 64 0x11))) (fun t => (t.rxState, t.rxBuf, t.evLog)) =
        some (.idle, [], [[0x0B, 0x03]]) := by decide
/-- V-COD-8: a pair that is not canonical. -/
theorem test_rx_esc_any :
    after (exec (.rxEscAny 0x13) (escaping [0x88])) (fun t => (t.rxState, t.rxBuf)) = some (.inPacket, [0x88, 0x9B]) := by
  decide
/-- V-COD-8 as one stream, and in two deliveries cut inside an escape pair (R90). -/
theorem test_unescape :
    unescape [0x8D, 0xAB, 0x00, 0xAB, 0x13, 0xAB, 0xFF] base = ([0x88, 0x9B, 0xFF], .inPacket)
      ∧ unescape [0x8D, 0xAB, 0x00, 0xAB] base = ([0x88], .escPending)
      ∧ unescape [0x13, 0xAB, 0xFF] (escaping [0x88]) = ([0x9B, 0xFF], .inPacket) := by decide
/-- A closed packet and one cut by a START: their bytes stay decoded where RX_BUF is cleared (R85, R86, R90). -/
theorem test_unescape_cleared :
    unescape [0x8D, 0x0A, 0xE1, 0xD8, 0x13, 0x8D, 0x0A, 0x8D] base = ([0x0A, 0xE1, 0x0A], .inPacket) := by decide
/-- V-TEL-4: group 2 starts at offset 12. -/
theorem test_pkt_telemetry :
    after (exec (.pktTelemetry ⟨0x08, 0xE1, 0x01, 0xFF⟩ [0x3F, 0x80, 0x00, 0x00, 0xC0, 0x20, 0x00, 0x00, 0x42, 0xB4, 0x00, 0x00, 0xAB, 0xD8, 0x8D, 0x00] 0x71)
        { base with mask1 := 0x00070000, mask2 := 0x00000001 }) (·.evLog) =
      some [[0x05, 0x00, 0x04, 0x01, 0x12, 0x3F, 0x80, 0x00, 0x00, 0x01, 0x11, 0xC0, 0x20, 0x00, 0x00, 0x01, 0x10, 0x42, 0xB4, 0x00, 0x00, 0x02, 0x00, 0xAB, 0xD8, 0x8D, 0x00]] := by
  decide
/-- V-TEL-5 and V-TEL-2: bit 31 first; and a length that does not fit. -/
theorem test_pkt_telemetry_order_and_error :
    after (exec (.pktTelemetry ⟨0x08, 0xE1, 0x01, 0xFF⟩ [0, 0, 0, 1, 0, 0, 0, 2] 0x13) { base with mask1 := 0x80000001 }) (·.evLog) =
        some [[0x05, 0x00, 0x02, 0x01, 0x1F, 0, 0, 0, 1, 0x01, 0x00, 0, 0, 0, 2]]
      ∧ after (exec (.pktTelemetry ⟨0x08, 0xE1, 0x01, 0xFF⟩ [1, 2, 3] 0x10) base) (·.evLog) =
        some [[0x09, 0x00, 0x00, 0x00, 0x00, 0x03]] := by decide
/-- V-DSP-1. -/
theorem test_pkt_collision :
    after (exec (.pktCollision ⟨0x08, 0xE1, 0x02, 0xFF⟩ [0x00, 0x01, 0xFF, 0xFE, 0x80, 0x00, 0x03, 0x00, 0x10, 0x01, 0x00] 0x83) base) (·.evLog) =
      some [[0x06, 0x00, 0x00, 0x01, 0xFF, 0xFE, 0x80, 0x00, 0x03, 0x00, 0x10, 0x01, 0x00, 0x00, 0x00]] := by decide
/-- V-DSP-4; and the signed components of V-DSP-1. -/
theorem test_pkt_collision_short_and_signs :
    after (exec (.pktCollision ⟨0x08, 0xE1, 0x02, 0xFF⟩ [1, 2] 0x12) base) (·.evLog) = some [[0x0B, 0x04]]
      ∧ signedComponent (readCollision [0x00, 0x01, 0xFF, 0xFE, 0x80, 0x00]).x = 1
      ∧ signedComponent (readCollision [0x00, 0x01, 0xFF, 0xFE, 0x80, 0x00]).y = -2
      ∧ signedComponent (readCollision [0x00, 0x01, 0xFF, 0xFE, 0x80, 0x00]).z = -32768 := by decide
/-- V-PKT-4. -/
theorem test_pkt_sleep_warning :
    after (exec (.pktSleepWarning ⟨0x08, 0xE1, 0x03, 0xFF⟩ [] 0x14) base) (·.evLog) = some [[0x07, 0x00]] := by decide
/-- V-DSP-5. -/
theorem test_pkt_sleeping :
    after (exec (.pktSleeping ⟨0x08, 0xE1, 0x04, 0xFF⟩ [] 0x13) (withPending 5 2 base)) (fun t => (t.evLog, slotAt t 5)) =
      some ([[0x08, 0x00]], ⟨true, 2⟩) := by decide
/-- V-COR-5 and V-COR-4: a response code that is not 0, and a wrong checksum. -/
theorem test_pkt_sync_resolves :
    after (exec (.pktSync ⟨0x09, 0x13, 0x01, 0x01⟩ 0x03 [0x01, 0x02] 0xDB) (withPending 1 2 base)) (fun t => (t.evLog, slotAt t 1)) =
        some ([[0x03, 0x01, 0x03, 0x02, 0x00, 0x02, 0x01, 0x02]], ⟨false, 2⟩)
      ∧ after (exec (.pktSync ⟨0x09, 0x13, 0x0D, 0x00⟩ 0x00 [] 0x00) (withPending 0 3 base)) (·.evLog) =
        some [[0x03, 0x00, 0x00, 0x01, 0x00, 0x00]] := by decide
/-- V-COR-3 and V-COR-9. -/
theorem test_pkt_sync_unmatched :
    after (exec (.pktSync ⟨0x09, 0x13, 0x0D, 0x00⟩ 0x00 [] 0xD6) base) (·.evLog) = some [[0x0A, 0x00, 0x00]]
      ∧ after (exec (.pktSync ⟨0x09, 0x13, 0x0D, 0xFF⟩ 0x00 [] 0xD7) base) (·.evLog) = some [[0x0A, 0xFF, 0x00]] := by
  decide
/-- V-COR-11: a held SEND keeps its place, and goes once its slot is free. -/
theorem test_send_holds :
    after (step { withPending 0 3 blocking with hostPort := [0x10, 0, 0, 0, 0, 0, 0, 0], sched := [.host] })
        (fun t => (t.hostPort.length, t.txLog, t.evLog)) = some (8, [], [])
      ∧ after (step { blocking with hostPort := [0x10, 0, 0, 0, 0, 0, 0, 0], sched := [.host] })
        (fun t => (t.hostPort.length, t.evLog)) = some (0, [[0x01, 0x00]]) := by decide
/-- V-TEL-3 through the field table: {pitch, roll, yaw} in that order (R161, R168). -/
theorem test_active_fields :
    (activeFields testConfig 1 0x00070000).map (·.name) = ["pitch", "roll", "yaw"] ∧ activeBits 0x80000001 = [31, 0]
      ∧ activeBits 0 = [] := by decide
/-- V-FRM-3 and V-CHK-7. -/
theorem test_frame_escapes :
    frame 0x0A 0x1A 0x1C 0x01 [0x8D, 0xD8, 0xAB, 0x00] =
        [0x8D, 0x0A, 0x1A, 0x1C, 0x01, 0xAB, 0x05, 0xAB, 0x50, 0xAB, 0x23, 0x00, 0xAE, 0xD8]
      ∧ checksum [0xFF, 0x01] = 0xFF := by decide

/-! ### Witnesses: for each statement with hypotheses, concrete values that meet them together

Where a statement has several clauses, each has its witness, at the ends of its range. -/

/-- A SEND waiting at the host port. -/
def sendBytes : List Byte := [0x10, 0x0A, 0x13, 0x0D, 0, 0, 0, 0]

/-- The bytes of `END`, `TICK` and `RESET` events at their ports. -/
def endBytes : List Byte := [0x40, 0, 0, 0xD8]
def tickBytes : List Byte := [0x50, 0, 0, 0]
def resetBytes : List Byte := [0x60, 0, 0, 0]

/-- A sync response header of number 0, and its packet with a responseCode of 0 and no data. -/
def header0 : Header := ⟨0x09, 0x13, 0x0D, 0x00⟩

theorem base_slotAt (q : Byte) : slotAt base q = ⟨false, 0⟩ := by
  simp [slotAt, base, State.powerOn]

/-- A good state at the ends of its ranges: the buffer full, the counter at 254, timers of 1 and of TIMEOUT_TICKS. -/
def busy : State := withPending 254 1 (withPending 0 3 { collecting (List.replicate 64 0) with seqCtr := 254 })

/-- Its table. -/
theorem busy_slotAt (q : Byte) :
    slotAt busy q = if q = 254 then ⟨true, 1⟩ else if q = 0 then ⟨true, 3⟩ else ⟨false, 0⟩ := by
  by_cases h1 : q = 254
  · rw [if_pos h1, h1]
    exact slotAt_setSlot_self _ (by decide) _
  · rw [if_neg h1]
    refine (slotAt_setSlot_of_ne _ (Ne.symm h1) _).trans ?_
    by_cases h2 : q = 0
    · rw [if_pos h2, h2]
      exact slotAt_setSlot_self _ (by decide) _
    · rw [if_neg h2]
      exact (slotAt_setSlot_of_ne _ (Ne.symm h2) _).trans (base_slotAt q)

theorem busy_inv : busy.Inv := by
  refine ⟨by decide, by decide, by decide, fun q => ?_⟩
  have hc : busy.cfg.timeoutTicks = 3 := rfl
  rw [isPending, busy_slotAt, hc]
  split
  · decide
  · split <;> decide

theorem witness_DecodeOfEncode :
    (Instr.send 1 2 3 (List.replicate 32 0)).WellFormed testConfig
      ∧ (∃ bytes, encode (.send 1 2 3 (List.replicate 32 0)) = .event bytes)
      ∧ (Instr.rxInData 0x8C).WellFormed testConfig
      ∧ (Instr.pktTelemetry ⟨8, 0xE1, 1, 0xFF⟩ (List.replicate 59 0) 0).WellFormed testConfig
      ∧ (Instr.pktCollision ⟨8, 0xE1, 2, 0⟩ (List.replicate 59 0) 0).WellFormed testConfig
      ∧ (Instr.pktSleepWarning ⟨8, 0xE1, 3, 0xFF⟩ [] 0).WellFormed testConfig
      ∧ (Instr.pktSleeping ⟨8, 0xE1, 4, 0xFF⟩ [] 0).WellFormed testConfig
      ∧ (Instr.pktSync ⟨9, 0xE1, 1, 0xFE⟩ 0 (List.replicate 58 0) 0).WellFormed testConfig :=
  ⟨by decide, ⟨_, rfl⟩, by decide, by decide, by decide, by decide, by decide, by decide⟩

theorem witness_EncodeOfDecode :
    decode [0x10, 0, 0, 0, 0, 0, 0, 0] = .event (.send 0 0 0 []) []
      ∧ decode [0xFF, 0xFF, 0xFF, 0xFF, 0x01] = .event (.reservedOp8F 0x7FFFFFFF) [0x01] := by decide

/-- One header word for each part of `headerReserved`, with its port. -/
theorem witness_ReservedInputsRefused_headers :
    headerReserved 0x00000000 ∧ headerReserved 0x70000000 ∧ headerReserved 0xFFFFFFFF ∧ headerReserved 0x11000000
      ∧ headerReserved 0x18000000 ∧ headerReserved 0x20000001 ∧ headerReserved 0x38000000 ∧ headerReserved 0x40000100
      ∧ headerReserved 0x48000000 ∧ headerReserved 0x50000001 ∧ headerReserved 0x68000000
      ∧ ({ base with hostPort := [0, 0, 0, 0], sched := [.host] } : State).sched = [.host]
      ∧ portBytes { base with hostPort := [0, 0, 0, 0], sched := [.host] } .host = [0, 0, 0, 0] :=
  ⟨by decide, by decide, by decide, by decide, by decide, by decide, by decide, by decide, by decide, by decide,
    by decide, rfl, rfl⟩

/-- A state with a SEND at its host port, to be taken next, whose header is followed by these bytes. -/
def sendWaiting (s : State) (rest : List Byte) : State :=
  { s with hostPort := 0x10 :: 0x0A :: 0x13 :: 0x0D :: rest, sched := [.host] }

/-- The clause on the must-be-zero half of SEND's operand word, with a bit set at each end of it. -/
theorem witness_ReservedInputsRefused_operand :
    (sendWaiting base [0x00, 0x01, 0x00, 0x00]).sched = [.host]
      ∧ portBytes (sendWaiting base [0x00, 0x01, 0x00, 0x00]) .host =
        0x10 :: 0x0A :: 0x13 :: 0x0D :: 0x00 :: 0x01 :: 0x00 :: 0x00 :: []
      ∧ ((0x00 : Byte) ++ (0x01 : Byte) : BitVec 16) ≠ 0
      ∧ portBytes (sendWaiting base [0x80, 0x00, 0x00, 0x00]) .host =
        0x10 :: 0x0A :: 0x13 :: 0x0D :: 0x80 :: 0x00 :: 0x00 :: 0x00 :: []
      ∧ ((0x80 : Byte) ++ (0x00 : Byte) : BitVec 16) ≠ 0 := by decide

/-- The clause on SEND's length: one byte too many, with the slot free and with the slot busy under BLOCK. -/
theorem witness_ReservedInputsRefused_length :
    (∀ s ∈ [base, withPending 0 3 blocking],
      (sendWaiting s (0x00 :: 0x00 :: 0x00 :: 0x21 :: List.replicate 33 0)).sched = [.host]
        ∧ portBytes (sendWaiting s (0x00 :: 0x00 :: 0x00 :: 0x21 :: List.replicate 33 0)) .host =
          0x10 :: 0x0A :: 0x13 :: 0x0D :: 0 :: 0 :: 0x00 :: 0x21 :: List.replicate 33 0
        ∧ (sendWaiting s (0x00 :: 0x00 :: 0x00 :: 0x21 :: List.replicate 33 0)).cfg.maxTxPayload.val <
          ((0x00 : Byte) ++ (0x21 : Byte) : BitVec 16).toNat)
      ∧ ((0x00 : Byte) ++ (0x21 : Byte) : BitVec 16).toNat ≤ (List.replicate 33 (0 : Byte)).length
      ∧ isPending (withPending 0 3 blocking) (withPending 0 3 blocking).seqCtr = true := by
  refine ⟨fun s hs => ?_, by decide, by decide⟩
  simp only [List.mem_cons, List.not_mem_nil, or_false] at hs
  rcases hs with rfl | rfl <;> decide

/-- Log 21: a must-be-zero bit is refused before the operand or the payload has come, a bound on LEN after. -/
theorem test_refused_before_the_rest_has_come :
    decode [0x11, 0x0A, 0x13, 0x0D] = .reserved ∧ decode [0x20, 0, 0, 1] = .reserved
      ∧ decode [0x10, 0x0A, 0x13, 0x0D, 0, 1, 0, 5] = .reserved
      ∧ decode [0x10, 0x0A, 0x13, 0x0D, 0, 0, 0, 0x21] = .incomplete := by decide

theorem witness_StepRunsDecodedEvent :
    let s := { base with hostPort := sendBytes, sched := [.host, .tick] }
    s.sched = [.host, .tick] ∧ decode (portBytes s .host) = .event (.send 0x0A 0x13 0x0D []) []
      ∧ holdsSend (.send 0x0A 0x13 0x0D []) s = false := by decide

theorem witness_EmptyTurnsPass :
    base.sched = [] ∧ { base with sched := [.tick] }.sched = [.tick]
      ∧ decode (portBytes { base with sched := [.tick] } .tick) = .incomplete := by decide

/-- A step from a good state. -/
theorem witness_StepKeepsInvariant :
    ({ busy with tickPort := tickBytes, sched := [.tick] } : State).Inv
      ∧ (∃ t, step { busy with tickPort := tickBytes, sched := [.tick] } = .next t)
      ∧ ∃ t, step { base with hostPort := sendBytes, sched := [.host] } = .next t :=
  ⟨⟨busy_inv.1, busy_inv.2, busy_inv.3, busy_inv.4⟩, exists_next (by decide), exists_next (by decide)⟩

theorem witness_InputsWriteOnlyTheirFields :
    (∃ t, exec (.send 0 0 0 []) base = .next t) ∧ (∃ t, exec (.setMask1 1) base = .next t)
      ∧ (∃ t, exec (.setMask2 1) base = .next t) ∧ (∃ t, exec (.rxByte 0xD8) (collecting [1]) = .next t)
      ∧ (∃ t, exec .tick busy = .next t) ∧ ∃ t, exec .reset busy = .next t :=
  ⟨exists_next (by decide), ⟨_, rfl⟩, ⟨_, rfl⟩, exists_next (by decide), ⟨_, rfl⟩, ⟨_, rfl⟩⟩

theorem witness_EventsPerInput :
    holdsSend (.send 0 0 0 []) busy = false ∧ (∃ t, exec (.send 0 0 0 []) busy = .next t)
      ∧ (∃ t, exec (Packet.sync header0 0 [] 0xD6).toInstr busy = .next t)
      ∧ (∃ t, exec (.rxByte 0x8D) (collecting [1]) = .next t) ∧ ∃ t, exec .reset base = .next t :=
  ⟨by decide, exists_next (by decide), exists_next (by decide), exists_next (by decide), ⟨_, rfl⟩⟩

theorem witness_EscapeTransformIdentity :
    (escaping (List.replicate 63 0)).rxState = .escPending
      ∧ (escaping (List.replicate 63 0)).rxBuf.length < (escaping []).cfg.rxBufMax := by decide

theorem witness_EscEncOfByte :
    ((0x8D : Byte) = 0x8D ∨ (0x8D : Byte) = 0xD8 ∨ (0x8D : Byte) = 0xAB)
      ∧ ¬ ((0x8C : Byte) = 0x8D ∨ (0x8C : Byte) = 0xD8 ∨ (0x8C : Byte) = 0xAB) := by decide

theorem witness_EscapeOfList : escape [0x01, 0xD8, 0x02] = [0x01] ++ (0xAB : Byte) :: [0x50, 0x02] := by decide

/-- A list that fills the buffer. -/
theorem witness_CodecRoundTrip :
    (collecting []).rxState = .inPacket ∧ (collecting []).rxBuf = []
      ∧ (List.replicate 64 (0xD8 : Byte)).length ≤ (collecting []).cfg.rxBufMax := by decide

theorem witness_EveryEscapePairAccepted :
    (collecting (List.replicate 63 0)).rxState = .inPacket
      ∧ (collecting (List.replicate 63 0)).rxBuf.length < (collecting []).cfg.rxBufMax := by decide

/-- The seven rows: a state and a byte of each class. -/
theorem witness_ReceivedByteRunsItsRow :
    base.rxState = .idle ∧ (0x8C : Byte) ≠ 0x8D ∧ (collecting [1]).rxState = .inPacket
      ∧ (0x50 : Byte) ≠ 0x8D ∧ (0x50 : Byte) ≠ 0xD8 ∧ (0x50 : Byte) ≠ 0xAB ∧ (escaping [1]).rxState = .escPending := by
  decide

theorem witness_IdleStartOpensPacket : base.rxState = .idle := rfl

theorem witness_IdleOtherDiscarded : base.rxState = .idle ∧ (0x8C : Byte) ≠ 0x8D ∧ (0xD8 : Byte) ≠ 0x8D := by decide

/-- With a byte collected and with none. -/
theorem witness_StartInPacketTruncates :
    (collecting [1]).rxState = .inPacket ∧ (collecting [1]).rxBuf ≠ [] ∧ (collecting []).rxState = .inPacket
      ∧ (collecting []).rxBuf = [] := by decide

theorem witness_EscapeInPacketArms : (collecting [1]).rxState = .inPacket := rfl

/-- The two outcomes of storing a byte: the last place, and none left. -/
theorem witness_DataByteStored :
    (collecting (List.replicate 63 0)).rxState = .inPacket
      ∧ (collecting (List.replicate 63 0)).rxBuf.length < (collecting []).cfg.rxBufMax
      ∧ (collecting (List.replicate 64 0)).rxState = .inPacket
      ∧ ¬ (collecting (List.replicate 64 0)).rxBuf.length < (collecting []).cfg.rxBufMax
      ∧ (0x50 : Byte) ≠ 0x8D ∧ (0x50 : Byte) ≠ 0xD8 ∧ (0x50 : Byte) ≠ 0xAB := by decide

/-- The two outcomes of storing a byte: the last place, and none left. -/
theorem witness_EscapedByteStored :
    (escaping (List.replicate 63 0)).rxState = .escPending
      ∧ (escaping (List.replicate 63 0)).rxBuf.length < (escaping []).cfg.rxBufMax
      ∧ (escaping (List.replicate 64 0)).rxState = .escPending
      ∧ ¬ (escaping (List.replicate 64 0)).rxBuf.length < (escaping []).cfg.rxBufMax := by decide

/-- The clauses of EndClosesPacket: 4 bytes; a sync packet of 5 and of 6; each async class, of 5 bytes. -/
theorem witness_EndClosesPacket :
    (collecting [1, 2, 3, 4]).rxState = .inPacket ∧ (collecting [1, 2, 3, 4]).rxBuf.length < 5
      ∧ (collecting [9, 0x13, 0x0D, 0, 0xD6]).rxBuf = header0.bytes ++ [0xD6]
      ∧ (collecting [9, 0x13, 0x0D, 0, 7, 0xD6]).rxBuf = header0.bytes ++ 7 :: [] ++ [0xD6]
      ∧ classify testConfig 0x13 0x0D 0 = .sync
      ∧ (collecting [8, 0xE1, 1, 0xFF, 0x16]).rxBuf = (⟨8, 0xE1, 1, 0xFF⟩ : Header).bytes ++ [] ++ [0x16]
      ∧ classify testConfig 0xE1 1 0xFF = .telemetry ∧ classify testConfig 0xE1 2 0x00 = .collision
      ∧ classify testConfig 0xE1 3 0xFF = .sleepWarning ∧ classify testConfig 0xE1 4 0xFF = .sleeping := by decide

theorem witness_ChecksumLaw :
    (0x00 : Byte) ≠ 0x01 ∧ sum8 [0x01, 0x02] = sum8 [0x02, 0x01] ∧ ([0x01, 0x02] : List Byte) ≠ [0x02, 0x01] := by decide

theorem witness_FrameLengthBounds :
    ∀ b ∈ frameBody 0x0A 0x13 0x0D 0x00 [], isMarker b = false := by decide

/-- A frame whose body fills the buffer, in IDLE and over a partial packet. -/
theorem witness_FrameRoundTrip :
    base.rxState ≠ .escPending ∧ (List.replicate 59 (0 : Byte)).length + 5 ≤ base.cfg.rxBufMax
      ∧ (collecting [1]).rxState ≠ .escPending
      ∧ ((collecting [1]).rxState = .inPacket ∧ (collecting [1]).rxBuf ≠ []) := by decide

theorem witness_WrongChecksumStillResolves :
    let s := withPending 0 3 (collecting [9, 0x13, 0x0D, 0, 0, 0])
    header0.seq.toNat < 255 ∧ s.rxState = .inPacket ∧ s.rxBuf = header0.bytes ++ 0 :: [] ++ [0x00]
      ∧ classify s.cfg header0.did header0.cid header0.seq = .sync ∧ isPending s header0.seq = true
      ∧ (0x00 : Byte) ≠ checksum (header0.bytes ++ 0 :: []) := by decide

/-- An identifier with and without the sentinel, for the five lines of the table of R68. -/
theorem witness_ClassifyByPriority :
    classify testConfig 0xE1 1 0xFF = .telemetry ∧ classify testConfig 0xE1 1 0xFE = .sync
      ∧ classify testConfig 0xE1 2 0xFF = .collision ∧ classify testConfig 0xE1 2 0xFE = .collision
      ∧ classify testConfig 0xE1 3 0xFE = .sync ∧ classify testConfig 0xE1 4 0xFE = .sync
      ∧ classify { testConfig with collisionId := ⟨0xE1, 1⟩ } 0xE1 1 0xFF = .telemetry := by decide

theorem witness_TelemetrySampleDelivered :
    (List.replicate 8 (0 : Byte)).length =
        4 * ((activeBits (0x80000001 : Word)).length + (activeBits (0 : Word)).length)
      ∧ (List.replicate 256 (0 : Byte)).length =
        4 * ((activeBits (0xFFFFFFFF : Word)).length + (activeBits (0xFFFFFFFF : Word)).length) := by decide +kernel

/-- A length one below and one above, and the one that fits. -/
theorem witness_TelemetryLengthMismatchReported :
    (List.replicate 3 (0 : Byte)).length ≠ 4 * (popcount 1 + popcount 0)
      ∧ (List.replicate 5 (0 : Byte)).length ≠ 4 * (popcount 1 + popcount 0)
      ∧ (List.replicate 4 (0 : Byte)).length = 4 * (popcount 1 + popcount 0) := by decide

theorem witness_CollisionDecoded : (List.replicate 10 (0 : Byte)).length < 11 := by decide

/-- The last number, pending; the sentinel; a free number. -/
theorem witness_ResponseResolvedOrUnmatched :
    (∃ h : (254 : Byte).toNat < 255, ((withPending 254 1 base).slots[(254 : Byte).toNat]).valid = true)
      ∧ (⟨9, 0x13, 0x0D, 0xFF⟩ : Header).seq = 0xFF
      ∧ ∃ h : (254 : Byte).toNat < 255, (base.slots[(254 : Byte).toNat]).valid = false :=
  ⟨⟨by decide, by decide +kernel⟩, by decide, ⟨by decide, by decide +kernel⟩⟩

theorem witness_AsyncPacketsLeavePendingTable :
    let s := withPending 5 1 (collecting [8, 0xE1, 2, 5, 0x0F])
    s.rxState = .inPacket ∧ s.rxBuf = (⟨8, 0xE1, 2, 5⟩ : Header).bytes ++ [] ++ [0x0F]
      ∧ classify s.cfg 0xE1 2 5 ≠ .sync := by decide

/-- The last number free, and a payload at the bound. -/
theorem witness_SendAccepted :
    (∃ h : ({ base with seqCtr := 254 } : State).seqCtr.toNat < 255,
        (({ base with seqCtr := 254 } : State).slots[({ base with seqCtr := 254 } : State).seqCtr.toNat]).valid = false)
      ∧ (List.replicate 32 (0 : Byte)).length ≤ base.cfg.maxTxPayload.val :=
  ⟨⟨by decide, by decide +kernel⟩, by decide⟩

theorem witness_BusySendRejected :
    (List.replicate 32 (0 : Byte)).length ≤ busy.cfg.maxTxPayload.val ∧ isPending busy busy.seqCtr = true
      ∧ busy.cfg.allocPolicy = .failFast := by decide

theorem witness_BlockedSendHolds :
    let s := { withPending 0 3 blocking with hostPort := sendBytes, tickPort := tickBytes, sched := [.host] }
    decode s.hostPort = .event (.send 0x0A 0x13 0x0D []) [] ∧ ([] : List Byte).length ≤ s.cfg.maxTxPayload.val
      ∧ isPending s s.seqCtr = true ∧ s.cfg.allocPolicy = .block ∧ s.sched = [.host]
      ∧ Port.tick ≠ .host ∧ { s with sched := [Port.tick] }.sched = [.tick]
      ∧ decode (portBytes s .tick) = .event .tick [] := by decide

theorem witness_ResetReleasesHeldSend :
    let s := { withPending 0 3 blocking with hostPort := sendBytes, resetPort := resetBytes, sched := [.reset, .host] }
    decode s.hostPort = .event (.send 0x0A 0x13 0x0D []) [] ∧ ([] : List Byte).length ≤ s.cfg.maxTxPayload.val
      ∧ decode s.resetPort = .event .reset [] ∧ s.sched = [.reset, .host] := by decide

/-- Timers of 1 and of TIMEOUT_TICKS, and a free slot. -/
theorem witness_TickCountsDown :
    (∀ q : Byte, isPending busy q = true → 1 ≤ (slotAt busy q).timer ∧ (slotAt busy q).timer ≤ busy.cfg.timeoutTicks)
      ∧ isPending busy 254 = true ∧ isPending busy 0 = true ∧ isPending busy 1 = false :=
  ⟨busy_inv.timer_range, by decide, by decide, by decide⟩

theorem witness_RequestExpiresOnItsLastTick :
    busy.Inv ∧ isPending busy 254 = true ∧ (slotAt busy 254).timer = 1 ∧ isPending busy 0 = true
      ∧ (slotAt busy 0).timer = 3 := ⟨busy_inv, by decide, by decide, by decide, by decide⟩

/-- A slot freed by a TICK, one freed by its response, and a completion reported. -/
theorem witness_CompletionExactlyWhenFreed :
    (∃ t, exec .tick busy = .next t ∧ isPending busy 254 = true ∧ isPending t 254 = false ∧ Instr.tick ≠ .reset)
      ∧ (∃ t, exec (.pktSync header0 0 [] 0xD6) busy = .next t ∧ isPending busy 0 = true ∧ isPending t 0 = false
        ∧ ∃ r ∈ newRecords busy t, completes 0 r = true)
      ∧ ∃ t, exec .reset busy = .next t :=
  ⟨⟨_, rfl, by decide, by decide +kernel, by decide⟩, ⟨_, rfl, by decide, by decide +kernel, by decide +kernel⟩, ⟨_, rfl⟩⟩

theorem witness_OnlySendMakesPending :
    ∃ t, exec (.send 0 0 0 []) base = .next t ∧ isPending base 0 = false ∧ isPending t 0 = true :=
  ⟨_, rfl, by decide, by decide⟩

theorem witness_CounterAdvancesOnlyOnAllocation :
    (∃ t, exec (.send 0 0 0 []) { base with seqCtr := 254 } = .next t ∧ t.seqCtr ≠ 254)
      ∧ ∃ t, exec .reset busy = .next t ∧ t.seqCtr ≠ busy.seqCtr := ⟨⟨_, rfl, by decide⟩, ⟨_, rfl, by decide⟩⟩

theorem witness_StepExtendsLogsKeepsConfig :
    ∃ t, step { base with hostPort := sendBytes, sched := [.host] } = .next t := exists_next (by decide)

theorem witness_StepTransmitsWholeFrames :
    ∃ t, step { base with hostPort := sendBytes, sched := [.host] } = .next t := exists_next (by decide)

/-- The counter at its last value. -/
theorem witness_SentinelNeverAllocated :
    ({ busy with tickPort := tickBytes, sched := [.tick] } : State).Inv
      ∧ ∃ t, step { busy with tickPort := tickBytes, sched := [.tick] } = .next t :=
  ⟨⟨busy_inv.1, busy_inv.2, busy_inv.3, busy_inv.4⟩, exists_next (by decide)⟩

theorem witness_ResponsesResolveInAnyOrder :
    header0.seq ≠ (⟨9, 0x13, 1, 254⟩ : Header).seq ∧ isPending busy header0.seq = true
      ∧ isPending busy (⟨9, 0x13, 1, 254⟩ : Header).seq = true := by decide

theorem witness_ResponseAndTimeoutRace :
    let s := withPending 0 1
      { collecting [9, 0x13, 0x0D, 0, 0, 0xD6] with rxPort := endBytes, tickPort := tickBytes }
    s.rxState = .inPacket ∧ s.rxBuf = header0.bytes ++ 0 :: [] ++ [0xD6]
      ∧ classify s.cfg header0.did header0.cid header0.seq = .sync ∧ slotAt s header0.seq = ⟨true, 1⟩
      ∧ decode s.rxPort = .event (.rxByte 0xD8) [] ∧ decode s.tickPort = .event .tick [] := by decide

/-- Every part of what the condition allows: END outside a packet, and another byte in one. -/
theorem witness_MaskWriteCommutesWithCollecting :
    ¬ (base.rxState = .inPacket ∧ (0xD8 : Byte) = 0xD8) ∧ ¬ ((collecting []).rxState = .inPacket ∧ (0xD9 : Byte) = 0xD8)
      ∧ ¬ ((escaping []).rxState = .inPacket ∧ (0xD8 : Byte) = 0xD8) := by decide

/-- Both clauses at the boundary: a full buffer's worth of bytes in IN_PACKET, and of body from IDLE. -/
theorem witness_UnescapeOfEscapeAndFrame :
    (collecting []).rxState = .inPacket
      ∧ (collecting []).rxBuf.length + (List.replicate 64 (0xD8 : Byte)).length ≤ (collecting []).cfg.rxBufMax
      ∧ base.rxState ≠ .escPending ∧ (List.replicate 59 (0xD8 : Byte)).length + 5 ≤ base.cfg.rxBufMax := by decide

theorem witness_PowerOnIsResetWithEmptyLogs : busy.cfg = testConfig ∧ ∃ t, exec .reset busy = .next t :=
  ⟨rfl, _, rfl⟩

end Sys2Proof.Tests
end

section
/-! PROOFS of the family 00_scope.md: a step and the event that it takes (R4, R5, R60). -/

namespace Sys2Proof.Machine

/-- The serialiser takes a whole event from the chosen port, with the choice, where it is no SEND that holds. -/
theorem fetch_eq_run {s : State} {p : Port} {ports : List Port} {i : Instr} {rest : List Byte}
    (hsched : s.sched = p :: ports) (hdecode : decode (portBytes s p) = .event i rest)
    (hholds : holdsSend i s = false) :
    fetch s = .run i (setPortBytes (setSched s ports) p rest) := by
  simp [fetch, hsched, hdecode, hholds]

/-- What is fetched is run to completion (R4). -/
theorem step_eq_exec_of_fetch {s t : State} {i : Instr} (h : fetch s = .run i t) : step s = exec i t := by
  simp [step, h]

/-- Settles O5: the event is fetched with its choice, and what is fetched is run. -/
theorem stepRunsDecodedEvent : Obligations.StepRunsDecodedEvent := by
  intro s p ports i rest hsched hdecode hholds
  have hfetch : fetch s = .run i (setPortBytes { s with sched := ports } p rest) :=
    fetch_eq_run hsched hdecode hholds
  exact step_eq_exec_of_fetch hfetch

end Sys2Proof.Machine
end

section
/-! PROOFS of the family 10_state.md: the invariant of a good state (R22, R23, R26, with 20_memory.md R45), what each
input writes (R33, R29, R30, R52), and the two fields that only an allocation and RESET move (R23, R24). -/

namespace Sys2Proof.Machine

/-! ### What the receive side writes -/

/-- A buffer that the receive side leaves is good where the one before was (R22, 20_memory.md R45). -/
theorem BufferStep.keeps_bounds {s : State} {r : RxState} {buf : List Byte} (h : BufferStep s r buf) (hs : s.Inv) :
    (r = .idle → buf = []) ∧ buf.length ≤ s.cfg.rxBufMax := by
  rcases h with ⟨rfl, rfl⟩ | rfl | ⟨hr, rfl | hfits⟩
  · exact ⟨hs.idle_empty, hs.buffer_fits⟩
  · exact ⟨fun _ => rfl, Nat.zero_le _⟩
  · exact ⟨fun e => absurd e hr, hs.buffer_fits⟩
  · exact ⟨fun e => absurd e hr, hfits⟩

/-- The row of the access table for the receive side (R33): RX_STATE, RX_BUF and EV_LOG, and of the slots PEND_VALID
alone, which is never set. -/
theorem ReceiveEffect.writes {s t : State} (h : ReceiveEffect s t) :
    ∃ r buf slots new, BufferStep s r buf
      ∧ t = { s with rxState := r, rxBuf := buf, slots := slots, evLog := s.evLog ++ new }
      ∧ ∀ q, slotAt t q = slotAt s q ∨ slotAt t q = ⟨false, (slotAt s q).timer⟩ := by
  obtain ⟨r, buf, hbuf, ⟨records, -, rfl⟩ | ⟨q, record, -, -, rfl⟩⟩ := h
  · exact ⟨r, buf, s.slots, records, hbuf, rfl, fun _ => .inl rfl⟩
  · refine ⟨r, buf, (freeSlot s q).slots, [record], hbuf, by apply State.ext <;> simp, fun k => ?_⟩
    have hk : slotAt { freeSlot s q with rxState := r, rxBuf := buf, evLog := s.evLog ++ [record] } k
        = slotAt (freeSlot s q) k := slotAt_congr rfl k
    rw [hk, slotAt_freeSlot]
    split
    · exact .inr rfl
    · exact .inl rfl

/-- The receive side leaves every timer, that of a slot it frees too (R125). -/
theorem ReceiveEffect.timer_eq {s t : State} (h : ReceiveEffect s t) (q : Byte) :
    (slotAt t q).timer = (slotAt s q).timer := by
  obtain ⟨_, _, _, _, -, -, hslots⟩ := h.writes
  rcases hslots q with e | e <;> rw [e]

/-- What is pending after an input of the receive side was pending before (R24). -/
theorem ReceiveEffect.isPending_of_isPending {s t : State} (h : ReceiveEffect s t) {q : Byte}
    (hq : isPending t q = true) : isPending s q = true := by
  obtain ⟨_, _, _, _, -, -, hslots⟩ := h.writes
  rcases hslots q with e | e
  · rwa [isPending, e] at hq
  · simp [isPending, e] at hq

/-- The receive side keeps the invariant. -/
theorem ReceiveEffect.inv {s t : State} (h : ReceiveEffect s t) (hs : s.Inv) : t.Inv := by
  have htimer : ∀ q, isPending t q = true → 1 ≤ (slotAt t q).timer ∧ (slotAt t q).timer ≤ s.cfg.timeoutTicks := by
    intro q hq
    rw [h.timer_eq q]
    exact hs.timer_range q (h.isPending_of_isPending hq)
  obtain ⟨r, buf, slots, new, hbuf, rfl, -⟩ := h.writes
  obtain ⟨hidle, hfits⟩ := hbuf.keeps_bounds hs
  exact ⟨hidle, hfits, hs.seq_range, htimer⟩

/-! ### An accepted SEND -/

@[simp] theorem acceptSend_cfg (flags did cid : Byte) (p : List Byte) (s : State) :
    (acceptSend flags did cid p s).cfg = s.cfg := by simp [acceptSend_eq]

/-- The counter after an allocation (R23, R122). -/
@[simp] theorem acceptSend_seqCtr (flags did cid : Byte) (p : List Byte) (s : State) :
    (acceptSend flags did cid p s).seqCtr = nextSeq s.seqCtr := by simp [acceptSend_eq]

/-- The slot at SEQ_CTR after an allocation (R122). -/
theorem slotAt_acceptSend_self (flags did cid : Byte) (p : List Byte) {s : State} (h : s.seqCtr.toNat < 255) :
    slotAt (acceptSend flags did cid p s) s.seqCtr = ⟨true, s.cfg.timeoutTicks⟩ :=
  slotAt_setSlot_self s h _

/-- An allocation leaves every other slot (R122). -/
theorem slotAt_acceptSend_of_ne (flags did cid : Byte) (p : List Byte) {s : State} {q : Byte} (h : s.seqCtr ≠ q) :
    slotAt (acceptSend flags did cid p s) q = slotAt s q :=
  slotAt_setSlot_of_ne s h _

/-- SEND keeps the invariant: the new slot has TIMEOUT_TICKS, of which there is at least one (R6), and the counter
is taken modulo 255. -/
theorem acceptSend_inv (flags did cid : Byte) (p : List Byte) {s : State} (hs : s.Inv) :
    (acceptSend flags did cid p s).Inv := by
  have hlt : s.seqCtr.toNat < 255 := Nat.lt_succ_of_le hs.seq_range
  refine ⟨?idle, ?fits, ?seq, fun q hq => ?timer⟩
  case idle => simpa [acceptSend_eq] using hs.idle_empty
  case fits => simpa [acceptSend_eq] using hs.buffer_fits
  case seq =>
    rw [acceptSend_seqCtr, nextSeq_toNat]
    omega
  case timer =>
    rw [acceptSend_cfg]
    by_cases hne : s.seqCtr = q
    · subst hne
      rw [slotAt_acceptSend_self flags did cid p hlt]
      exact ⟨Nat.succ_pos _, Nat.le_refl _⟩
    · rw [isPending, slotAt_acceptSend_of_ne flags did cid p hne] at hq
      rw [slotAt_acceptSend_of_ne flags did cid p hne]
      exact hs.timer_range q hq

/-! ### TICK -/

/-- A slot that is pending after a TICK was pending before (R24, R127). -/
theorem valid_of_tickSlot_valid {tw : Nat} {x : Slot} (h : (tickSlot tw x).valid = true) : x.valid = true := by
  rw [tickSlot_valid] at h
  exact Bool.and_elim_left h

/-- TICK makes no slot pending (R24, R127). -/
theorem isPending_of_isPending_tick {s : State} {tw : Nat} {records : List (List Byte)} {q : Byte}
    (h : isPending (emitRecords { s with slots := s.slots.map (tickSlot tw) } records) q = true) :
    isPending s q = true := by
  rw [isPending_emitRecords, isPending, slotAt_map_tickSlot] at h
  exact valid_of_tickSlot_valid h

/-- A slot with 1 to `c.timeoutTicks` ticks left that stays pending over a TICK has one tick less, and not none. -/
theorem tickSlot_timer_range (c : Config) {x : Slot} (h1 : 1 ≤ x.timer) (h2 : x.timer ≤ c.timeoutTicks)
    (h : (tickSlot (timerWidth c) x).valid = true) :
    1 ≤ (tickSlot (timerWidth c) x).timer ∧ (tickSlot (timerWidth c) x).timer ≤ c.timeoutTicks := by
  simp only [tickSlot, valid_of_tickSlot_valid h, if_true, timerPred_of_le c h1 h2, bne_iff_ne] at h ⊢
  omega

/-- TICK keeps the invariant: a timer that would reach 0 frees its slot. -/
theorem tick_inv {s : State} (hs : s.Inv) :
    ({ s with slots := s.slots.map (tickSlot (timerWidth s.cfg)) } : State).Inv := by
  refine ⟨hs.idle_empty, hs.buffer_fits, hs.seq_range, fun q hq => ?_⟩
  rw [isPending, slotAt_map_tickSlot] at hq
  rw [slotAt_map_tickSlot]
  obtain ⟨h1, h2⟩ := hs.timer_range q (valid_of_tickSlot_valid hq)
  exact tickSlot_timer_range s.cfg h1 h2 hq

/-! ### RESET and power-on -/

/-- RESET gives a good state from any state (R34, R210): SEQ_RESET is a number below 255 (R6). -/
theorem resetBlock_inv (s : State) : (resetBlock s).Inv := by
  refine ⟨fun _ => rfl, Nat.zero_le _, ?_, fun q hq => ?_⟩
  · have := s.cfg.seqReset.isLt
    simp only [resetBlock_seqCtr, BitVec.toNat_ofNat]
    omega
  · simp [isPending, slotAt_resetBlock] at hq

/-- RESET at power-on changes nothing (R211). -/
theorem resetBlock_powerOn (c : Config) : resetBlock (State.powerOn c) = State.powerOn c := rfl

/-- The state at power-on is a good one. -/
theorem powerOn_inv (c : Config) : (State.powerOn c).Inv :=
  resetBlock_powerOn c ▸ resetBlock_inv (State.powerOn c)

/-- Settles O8: power-on is the state of a RESET. -/
theorem powerOnMeetsInvariant : Obligations.PowerOnMeetsInvariant :=
  ⟨powerOn_inv, powerOn_inv Config.atReset⟩

/-- Settles O57: RESET writes what power-on holds, and reads the configuration alone. -/
theorem powerOnIsResetWithEmptyLogs : Obligations.PowerOnIsResetWithEmptyLogs := by
  refine fun c => ⟨congrArg _ (resetBlock_powerOn c), rfl, rfl, rfl, fun s t hcfg h => ?_⟩
  subst hcfg
  cases h
  exact ⟨rfl, rfl, rfl, rfl, rfl, rfl⟩

/-! ### Every step keeps the invariant -/

/-- Records are no part of the invariant. -/
theorem State.Inv.emitRecords {s : State} (h : s.Inv) (records : List (List Byte)) :
    (Machine.emitRecords s records).Inv :=
  h.congr rfl rfl rfl rfl rfl

/-- Every instruction keeps the invariant. -/
theorem exec_preserves_inv {i : Instr} {s t : State} (hs : s.Inv) (h : exec i s = .next t) : t.Inv := by
  rcases exec_cases h with ⟨-, heff⟩ | ⟨m, -, rfl⟩ | ⟨m, -, rfl⟩ | ⟨-, rfl⟩ | ⟨-, rfl⟩
    | ⟨flags, did, cid, p, -, ⟨-, rfl⟩ | ⟨-, -, rfl⟩ | ⟨-, -, rfl⟩⟩
  · exact heff.inv hs
  · exact hs.congr rfl rfl rfl rfl rfl
  · exact hs.congr rfl rfl rfl rfl rfl
  · exact resetBlock_inv s
  · exact (tick_inv hs).emitRecords _
  · exact hs
  · exact hs.emitRecords _
  · exact acceptSend_inv flags did cid p hs

/-- Settles O7: what the serialiser takes from a port is not among the fields the invariant speaks of, and every
instruction keeps it. -/
theorem stepKeepsInvariant : Obligations.StepKeepsInvariant := by
  intro s t hs h
  obtain ⟨p, ports, -, rfl | ⟨i, rest, -, -, hexec⟩⟩ := step_cases h
  · exact hs.congr rfl rfl rfl rfl rfl
  · exact exec_preserves_inv (hs.congr (by simp) (by simp) (by simp) (by simp) (by simp)) hexec

/-! ### The logs and what stands outside the block -/

/-- No instruction writes the configuration, a port or the serialiser's choices (R33, R52). -/
theorem exec_keeps_outside {i : Instr} {s t : State} (h : exec i s = .next t) :
    t.cfg = s.cfg ∧ t.hostPort = s.hostPort ∧ t.rxPort = s.rxPort ∧ t.tickPort = s.tickPort
      ∧ t.resetPort = s.resetPort ∧ t.sched = s.sched := by
  rcases exec_cases h with ⟨-, heff⟩ | ⟨m, -, rfl⟩ | ⟨m, -, rfl⟩ | ⟨-, rfl⟩ | ⟨-, rfl⟩
    | ⟨flags, did, cid, p, -, ⟨-, rfl⟩ | ⟨-, -, rfl⟩ | ⟨-, -, rfl⟩⟩
  case inl =>
    obtain ⟨_, _, _, _, -, rfl, -⟩ := heff.writes
    simp
  all_goals simp [acceptSend_eq]

/-- Every instruction only adds to the two logs (R29, R30). -/
theorem exec_extends_logs {i : Instr} {s t : State} (h : exec i s = .next t) :
    s.txLog <+: t.txLog ∧ s.evLog <+: t.evLog := by
  rcases exec_cases h with ⟨-, heff⟩ | ⟨m, -, rfl⟩ | ⟨m, -, rfl⟩ | ⟨-, rfl⟩ | ⟨-, rfl⟩
    | ⟨flags, did, cid, p, -, ⟨-, rfl⟩ | ⟨-, -, rfl⟩ | ⟨-, -, rfl⟩⟩
  case inl =>
    obtain ⟨_, _, _, _, -, rfl, -⟩ := heff.writes
    simp
  all_goals simp [acceptSend_eq]

/-- Settles O9: taking an event leaves the logs and the configuration, and every instruction does what is claimed. -/
theorem stepExtendsLogsKeepsConfig : Obligations.StepExtendsLogsKeepsConfig := by
  intro s t h
  obtain ⟨p, ports, -, rfl | ⟨i, rest, -, -, hexec⟩⟩ := step_cases h
  · simp
  · obtain ⟨htx, hev⟩ := exec_extends_logs hexec
    obtain ⟨hcfg, -⟩ := exec_keeps_outside hexec
    simp only [setPortBytes_txLog, setPortBytes_evLog, setPortBytes_cfg, setSched_txLog, setSched_evLog,
      setSched_cfg] at htx hev hcfg
    exact ⟨htx, hev, hcfg⟩

/-- SEND leaves the receive side and the masks (R33), whether it is rejected, holds or is accepted. -/
theorem exec_send_keeps {flags did cid : Byte} {p : List Byte} {s t : State}
    (h : exec (.send flags did cid p) s = .next t) :
    t.rxState = s.rxState ∧ t.rxBuf = s.rxBuf ∧ t.mask1 = s.mask1 ∧ t.mask2 = s.mask2 := by
  rcases execSend_cases flags did cid p s with ⟨-, e⟩ | ⟨-, -, -, e⟩ | ⟨-, -, -, e⟩ | ⟨-, -, e⟩ <;>
    cases e.symm.trans h
  · simp
  · simp
  · simp [acceptSend_eq]

/-- Settles O11: the access table of R33, input by input. -/
theorem inputsWriteOnlyTheirFields : Obligations.InputsWriteOnlyTheirFields := by
  intro i s t h
  refine ⟨exec_keeps_outside h, ?send, ?setMask1, ?setMask2, ?rxByte, ?tick, ?reset⟩
  case send =>
    rintro ⟨flags, did, cid, p, rfl⟩
    exact exec_send_keeps h
  case setMask1 =>
    rintro ⟨m, rfl⟩
    cases h
    rfl
  case setMask2 =>
    rintro ⟨m, rfl⟩
    cases h
    rfl
  case rxByte =>
    rintro ⟨b, rfl⟩
    have heff : ReceiveEffect s t := exec_effect rfl h
    have htimer := heff.timer_eq
    obtain ⟨_, _, _, _, -, rfl, -⟩ := heff.writes
    exact ⟨rfl, rfl, rfl, rfl, htimer⟩
  case tick =>
    rintro rfl
    cases h
    rfl
  case reset =>
    rintro rfl
    cases h
    exact ⟨rfl, rfl⟩

/-! ### Allocation -/

/-- Settles O47: the receive side and TICK only clear PEND_VALID, RESET clears all, and an accepted SEND writes the
one slot at SEQ_CTR. -/
theorem onlySendMakesPending : Obligations.OnlySendMakesPending := by
  intro i s t q h hfree hpend
  have hnot : ¬ isPending s q = true := by simp [hfree]
  rcases exec_cases h with ⟨-, heff⟩ | ⟨m, -, rfl⟩ | ⟨m, -, rfl⟩ | ⟨-, rfl⟩ | ⟨-, rfl⟩
    | ⟨flags, did, cid, p, rfl, ⟨-, rfl⟩ | ⟨-, -, rfl⟩ | ⟨-, -, rfl⟩⟩
  · exact absurd (heff.isPending_of_isPending hpend) hnot
  · exact absurd hpend hnot
  · exact absurd hpend hnot
  · simp [isPending, slotAt_resetBlock] at hpend
  · exact absurd (isPending_of_isPending_tick hpend) hnot
  · exact absurd hpend hnot
  · exact absurd hpend hnot
  · have hq : s.seqCtr = q := by
      by_contra hne
      rw [isPending, slotAt_acceptSend_of_ne flags did cid p hne] at hpend
      exact hnot hpend
    subst hq
    have hslot := slotAt_acceptSend_self flags did cid p (lt_of_isPending hpend)
    exact ⟨⟨flags, did, cid, p, rfl, by simp [acceptSend_eq]⟩, rfl, hslot, by simp [acceptSend_eq]⟩

/-- Settles O48: every other instruction leaves the counter. -/
theorem counterAdvancesOnlyOnAllocation : Obligations.CounterAdvancesOnlyOnAllocation := by
  intro i s t h hne
  rcases exec_cases h with ⟨-, heff⟩ | ⟨m, -, rfl⟩ | ⟨m, -, rfl⟩ | ⟨hreset, rfl⟩ | ⟨-, rfl⟩
    | ⟨flags, did, cid, p, -, ⟨-, rfl⟩ | ⟨-, -, rfl⟩ | ⟨-, -, rfl⟩⟩
  · obtain ⟨_, _, _, _, -, rfl, -⟩ := heff.writes
    exact absurd rfl hne
  · exact absurd rfl hne
  · exact absurd rfl hne
  · exact .inl ⟨hreset, rfl⟩
  · exact absurd rfl hne
  · exact absurd rfl hne
  · exact absurd rfl hne
  · refine .inr ⟨newRecords_of_append (by simp [acceptSend_eq]), ?_⟩
    rw [acceptSend_seqCtr, nextSeq_toNat]

end Sys2Proof.Machine
end

section
/-! PROOFS of the family 20_memory.md: what a step hands over to the transport (R46), and when a decode reads the masks
(R50). -/

namespace Sys2Proof.Machine

/-! ### What an instruction hands over -/

/-- Only an accepted SEND calls `tx`, once and with one whole frame that bears the counter (R29, R46). -/
theorem exec_txLog {i : Instr} {s t : State} (h : exec i s = .next t) :
    t.txLog = s.txLog ∨ ∃ flags did cid payload, i = .send flags did cid payload
      ∧ t.txLog = s.txLog ++ frame flags did cid s.seqCtr payload := by
  rcases exec_cases h with ⟨-, heff⟩ | ⟨m, -, rfl⟩ | ⟨m, -, rfl⟩ | ⟨-, rfl⟩ | ⟨-, rfl⟩
    | ⟨flags, did, cid, p, hsend, ⟨-, rfl⟩ | ⟨-, -, rfl⟩ | ⟨-, -, rfl⟩⟩
  · obtain ⟨_, _, _, _, -, rfl, -⟩ := heff.writes
    exact .inl rfl
  · exact .inl rfl
  · exact .inl rfl
  · exact .inl rfl
  · exact .inl rfl
  · exact .inl rfl
  · exact .inl rfl
  · exact .inr ⟨flags, did, cid, p, hsend, by simp [acceptSend_eq]⟩

/-- Settles O10: taking the event leaves TX_LOG and SEQ_CTR, and the instruction adds nothing or one frame. -/
theorem stepTransmitsWholeFrames : Obligations.StepTransmitsWholeFrames := by
  intro s t h
  obtain ⟨p, ports, -, rfl | ⟨i, rest, -, -, hexec⟩⟩ := step_cases h
  · exact .inl rfl
  · rcases exec_txLog hexec with hkept | ⟨flags, did, cid, payload, -, hframe⟩
    · left
      simpa using hkept
    · right
      exact ⟨flags, did, cid, payload, by simpa using hframe⟩

/-! ### When the masks are read -/

/-- `s` with both masks replaced; one SET_MASK replaces one of them and repeats the other (R162, R163). -/
def withMasks (m₁ m₂ : Word) (s : State) : State := { s with mask1 := m₁, mask2 := m₂ }

/-- SET_MASK1 (R162) in terms of `withMasks`. -/
theorem exec_setMask1_eq_withMasks (m : Word) (s : State) :
    exec (.setMask1 m) s = .next (withMasks m s.mask2 s) := rfl

/-- SET_MASK2 (R163) in terms of `withMasks`. -/
theorem exec_setMask2_eq_withMasks (m : Word) (s : State) :
    exec (.setMask2 m) s = .next (withMasks s.mask1 m s) := rfl

/-- Storing a byte, or overflowing, neither reads nor writes the masks (R45, R88, R89). -/
theorem storeByte_withMasks (b : Byte) (m₁ m₂ : Word) (s : State) :
    storeByte b (withMasks m₁ m₂ s) = withMasks m₁ m₂ (storeByte b s) := by
  by_cases hfits : s.rxBuf.length < s.cfg.rxBufMax
  · simp [storeByte, withMasks, hfits, rxAppend, setRxState]
  · simp [storeByte, withMasks, hfits, emitRecords, rxClear, setRxState]

/-- Every row of RX_DECODE but RX_IN_END answers the same next state under all masks, up to the masks. -/
theorem execRow_withMasks {row : RxRow} (hrow : row ≠ .inEnd) (s : State) :
    ∃ t, ∀ m₁ m₂, exec row.toInstr (withMasks m₁ m₂ s) = .next (withMasks m₁ m₂ t) := by
  cases row with
  | idleStart =>
      by_cases hidle : s.rxState = .idle
      · exact ⟨setRxState (rxClear s) .inPacket, fun _ _ => if_pos hidle⟩
      · exact ⟨s, fun _ _ => if_neg hidle⟩
  | idleOther b => exact ⟨s, fun _ _ => rfl⟩
  | inStart =>
      by_cases hin : s.rxState = .inPacket
      · by_cases hheld : 0 < s.rxBuf.length
        · refine ⟨setRxState (rxClear (emitRecords s [eventRecord (.malformed .truncated)])) .inPacket, fun _ _ => ?_⟩
          simp [RxRow.toInstr, exec, execRxInStart, withMasks, hin, hheld, emitRecords, rxClear, setRxState]
        · refine ⟨setRxState (rxClear s) .inPacket, fun _ _ => ?_⟩
          simp [RxRow.toInstr, exec, execRxInStart, withMasks, hin, hheld, rxClear, setRxState]
      · exact ⟨s, fun _ _ => if_neg hin⟩
  | inEnd => exact absurd rfl hrow
  | inEscape =>
      by_cases hin : s.rxState = .inPacket
      · exact ⟨setRxState s .escPending, fun _ _ => if_pos hin⟩
      · exact ⟨s, fun _ _ => if_neg hin⟩
  | inData b =>
      by_cases hdata : s.rxState = .inPacket ∧ isMarker b = false
      · exact ⟨storeByte b s, fun m₁ m₂ => storeByte_withMasks b m₁ m₂ s ▸ if_pos hdata⟩
      · exact ⟨s, fun _ _ => if_neg hdata⟩
  | escAny b =>
      by_cases hesc : s.rxState = .escPending
      · exact ⟨storeByte (b ||| decodeMaskByte) s, fun m₁ m₂ => storeByte_withMasks _ m₁ m₂ s ▸ if_pos hesc⟩
      · exact ⟨s, fun _ _ => if_neg hesc⟩

/-- RX_IN_END is the row of an END in a packet alone (R67). -/
theorem rxDecode_eq_inEnd_iff (st : RxState) (b : Byte) :
    rxDecode st b = .inEnd ↔ st = .inPacket ∧ b = endByte := by
  cases st with
  | idle => by_cases hstart : b = startByte <;> simp [rxDecode, hstart]
  | inPacket =>
      by_cases hstart : b = startByte
      · simp [rxDecode, hstart, startByte, endByte]
      · by_cases hend : b = endByte
        · simp [rxDecode, hend, startByte, endByte]
        · simp only [rxDecode, hstart, hend, if_false, and_false, iff_false]
          split <;> simp
  | escPending => simp [rxDecode]

/-- Settles O54: the byte's row is not RX_IN_END, and every other row answers alike under all masks. -/
theorem maskWriteCommutesWithCollecting : Obligations.MaskWriteCommutesWithCollecting := by
  intro s m b hnotEnd
  have hrow : rxDecode s.rxState b ≠ .inEnd := fun e => hnotEnd ((rxDecode_eq_inEnd_iff _ _).mp e)
  obtain ⟨t, ht⟩ := execRow_withMasks hrow s
  have hbyte : ∀ m₁ m₂, exec (.rxByte b) (withMasks m₁ m₂ s) = .next (withMasks m₁ m₂ t) := fun m₁ m₂ =>
    (execRxByte_eq b (withMasks m₁ m₂ s)).trans (ht m₁ m₂)
  exact ⟨withMasks s.mask1 s.mask2 t, hbyte s.mask1 s.mask2, hbyte m s.mask2, hbyte s.mask1 m⟩

end Sys2Proof.Machine
end

section
/-! PROOFS of the family 30_encoding.md: the decoders and the encoder, each the other's inverse (R60 to R69). -/

namespace Sys2Proof

open Sys2Proof.Machine

/-! ### Words and their parts -/

/-- A bit vector is known from its high part and its low part. -/
theorem eq_append_of_extractLsb' {k m : Nat} {w : BitVec (k + m)} {x : BitVec k} {y : BitVec m}
    (hhigh : w.extractLsb' m k = x) (hlow : w.extractLsb' 0 m = y) : w = x ++ y := by
  rw [← hhigh, ← hlow, extractLsb'_append_extractLsb']

/-- The high part of a concatenation. -/
theorem extractLsb'_append_high {k m : Nat} (x : BitVec k) (y : BitVec m) : (x ++ y).extractLsb' m k = x := by
  rw [extractLsb'_append_of_le x y le_rfl]
  simp

/-- The low part of a concatenation. -/
theorem extractLsb'_append_low {k m : Nat} (x : BitVec k) (y : BitVec m) : (x ++ y).extractLsb' 0 m = y := by
  rw [extractLsb'_append_of_add_le x y (by omega)]
  simp

/-- A header word with operation code 1 and its must-be-zero bits zero is SEND's (R61). -/
theorem eq_sendHeader {w : Word} (hop : (w.extractLsb' 28 4).toNat = 1) (hzero : w.extractLsb' 24 4 = 0) :
    w = 0x10#8 ++ w.extractLsb' 16 8 ++ w.extractLsb' 8 8 ++ w.extractLsb' 0 8 := by
  have hfirst : w.extractLsb' 24 8 = 0x10#8 := by
    have hlow := congrArg BitVec.toNat hzero
    apply BitVec.eq_of_toNat_eq
    simp only [BitVec.extractLsb'_toNat, Nat.shiftRight_eq_div_pow, BitVec.ofNat_eq_ofNat, BitVec.toNat_ofNat]
      at hop hlow ⊢
    omega
  rw [← hfirst]
  exact (wordOfBytes_extract w).symm

/-- A header word with operation code 4 and its must-be-zero bits zero is RX_BYTE's (R63). -/
theorem eq_rxByteHeader {w : Word} (hop : (w.extractLsb' 28 4).toNat = 4) (hzero : w.extractLsb' 8 20 = 0) :
    w = 0x400000#24 ++ w.extractLsb' 0 8 := by
  have hupper : w.extractLsb' 8 24 = 0x400000#24 := by
    have hlow := congrArg BitVec.toNat hzero
    apply BitVec.eq_of_toNat_eq
    simp only [BitVec.extractLsb'_toNat, Nat.shiftRight_eq_div_pow, BitVec.ofNat_eq_ofNat, BitVec.toNat_ofNat]
      at hop hlow ⊢
    omega
  exact eq_append_of_extractLsb' (k := 24) (m := 8) hupper rfl

/-- A header word is its operation code and the 28 bits below (R60). -/
theorem eq_op_append {w : Word} {op : BitVec 4} {low : BitVec 28} (hop : (w.extractLsb' 28 4).toNat = op.toNat)
    (hlow : w.extractLsb' 0 28 = low) : w = op ++ low :=
  eq_append_of_extractLsb' (k := 4) (m := 28) (BitVec.eq_of_toNat_eq hop) hlow

/-- A header word with an operation code from 8 on has its top bit set (R66). -/
theorem eq_topBitHeader {w : Word} (hop : 8 ≤ (w.extractLsb' 28 4).toNat) : w = 0b1#1 ++ w.extractLsb' 0 31 := by
  have htop : w.extractLsb' 31 1 = 0b1#1 := by
    apply BitVec.eq_of_toNat_eq
    simp only [BitVec.extractLsb'_toNat, Nat.shiftRight_eq_div_pow, BitVec.toNat_ofNat] at hop ⊢
    omega
  exact eq_append_of_extractLsb' htop rfl

/-! ### The decoder, an equation per operation code (R60 to R66) -/

section Header

variable {w : Word} (rest : List Byte)

theorem decodeHeader_op0 (hop : (w.extractLsb' 28 4).toNat = 0) :
    decodeHeader w rest = .event (.reservedOp0 (w.extractLsb' 0 28)) rest := by
  simp only [decodeHeader, hop]

theorem decodeHeader_op1 (hop : (w.extractLsb' 28 4).toNat = 1) :
    decodeHeader w rest =
      if w.extractLsb' 24 4 ≠ 0 then .reserved
      else decodeSend (w.extractLsb' 16 8) (w.extractLsb' 8 8) (w.extractLsb' 0 8) rest := by
  simp only [decodeHeader, hop]

theorem decodeHeader_op2 (hop : (w.extractLsb' 28 4).toNat = 2) :
    decodeHeader w rest = if w.extractLsb' 0 28 ≠ 0 then .reserved else decodeMask .setMask1 rest := by
  simp only [decodeHeader, hop]

theorem decodeHeader_op3 (hop : (w.extractLsb' 28 4).toNat = 3) :
    decodeHeader w rest = if w.extractLsb' 0 28 ≠ 0 then .reserved else decodeMask .setMask2 rest := by
  simp only [decodeHeader, hop]

theorem decodeHeader_op4 (hop : (w.extractLsb' 28 4).toNat = 4) :
    decodeHeader w rest =
      if w.extractLsb' 8 20 ≠ 0 then .reserved else .event (.rxByte (w.extractLsb' 0 8)) rest := by
  simp only [decodeHeader, hop]

theorem decodeHeader_op5 (hop : (w.extractLsb' 28 4).toNat = 5) :
    decodeHeader w rest = if w.extractLsb' 0 28 ≠ 0 then .reserved else .event .tick rest := by
  simp only [decodeHeader, hop]

theorem decodeHeader_op6 (hop : (w.extractLsb' 28 4).toNat = 6) :
    decodeHeader w rest = if w.extractLsb' 0 28 ≠ 0 then .reserved else .event .reset rest := by
  simp only [decodeHeader, hop]

theorem decodeHeader_op7 (hop : (w.extractLsb' 28 4).toNat = 7) :
    decodeHeader w rest = .event (.reservedOp7 (w.extractLsb' 0 28)) rest := by
  simp only [decodeHeader, hop]

theorem decodeHeader_op8F (hop : 8 ≤ (w.extractLsb' 28 4).toNat) :
    decodeHeader w rest = .event (.reservedOp8F (w.extractLsb' 0 31)) rest := by
  obtain ⟨n, hn⟩ := Nat.exists_eq_add_of_le' hop
  simp only [decodeHeader, hn]

end Header

/-- SEND's operand word, by its two halves (R61). -/
theorem decodeSend_cons (flags did cid a b c d : Byte) (l : List Byte) :
    decodeSend flags did cid (a :: b :: c :: d :: l) =
      if (a ++ b : BitVec 16) ≠ 0 then .reserved
      else if l.length < (c ++ d : BitVec 16).toNat then .incomplete
      else .event (.send flags did cid (l.take (c ++ d : BitVec 16).toNat)) (l.drop (c ++ d : BitVec 16).toNat) := by
  simp only [decodeSend, wordOfBytes_upper, wordOfBytes_lower]

/-- An event that starts with the byte 0x10 is a SEND, its header's other three bytes its operands (R61). -/
theorem decode_sendHeader (flags did cid : Byte) (l : List Byte) :
    decode (0x10 :: flags :: did :: cid :: l) = decodeSend flags did cid l := by
  have hop : ((wordOfBytes 0x10 flags did cid).extractLsb' 28 4).toNat = 1 := by
    rw [wordOfBytes_op]
    rfl
  have hzero : (wordOfBytes 0x10 flags did cid).extractLsb' 24 4 = 0 := by
    rw [wordOfBytes_low_of_first]
    rfl
  have hbytes := bytesOfWord_wordOfBytes 0x10 flags did cid
  simp only [bytesOfWord, List.cons.injEq, and_true] at hbytes
  obtain ⟨-, hflags, hdid, hcid⟩ := hbytes
  have hdecode : decodeHeader (wordOfBytes 0x10 flags did cid) l = _ := decodeHeader_op1 l hop
  rw [hzero, hflags, hdid, hcid] at hdecode
  exact hdecode

/-- SEND's bytes, with the length as a half word (R61). -/
theorem encodeSend_eq (flags did cid : Byte) (payload : List Byte) :
    encodeSend flags did cid payload =
      [0x10, flags, did, cid] ++ ([0, 0] ++ halfBytes (BitVec.ofNat 16 payload.length)) ++ payload := by
  have hlength : bytesOfWord (0#16 ++ BitVec.ofNat 16 payload.length) =
      [0, 0] ++ halfBytes (BitVec.ofNat 16 payload.length) := by
    have hword : (0#16 ++ BitVec.ofNat 16 payload.length : BitVec 32) = wordOfBytes 0 0
        ((BitVec.ofNat 16 payload.length).extractLsb' 8 8) ((BitVec.ofNat 16 payload.length).extractLsb' 0 8) := by
      symm
      apply eq_append_of_extractLsb' (k := 16) (m := 16)
      · rw [wordOfBytes_upper]
        rfl
      · rw [wordOfBytes_lower]
        exact extractLsb'_append_extractLsb' (k := 8) (m := 8) _
    rw [hword, bytesOfWord_wordOfBytes]
    rfl
  rw [encodeSend, hlength]
  exact congrArg (· ++ _ ++ _) (bytesOfWord_wordOfBytes 0x10 flags did cid)

/-! ### Decode of encode -/

/-- A SEND's bytes decode to it, whatever stands behind them (R61). -/
theorem decode_encodeSend (flags did cid : Byte) {payload : List Byte} (hlength : payload.length < 65536)
    (rest : List Byte) :
    decode (encodeSend flags did cid payload ++ rest) = .event (.send flags did cid payload) rest := by
  have hhalf : ((BitVec.ofNat 16 payload.length).extractLsb' 8 8 ++
      (BitVec.ofNat 16 payload.length).extractLsb' 0 8 : BitVec 16).toNat = payload.length := by
    rw [show (BitVec.ofNat 16 payload.length).extractLsb' 8 8 ++ (BitVec.ofNat 16 payload.length).extractLsb' 0 8
      = BitVec.ofNat 16 payload.length from extractLsb'_append_extractLsb' (k := 8) (m := 8) _]
    simpa using hlength
  simp only [encodeSend_eq, halfBytes, List.cons_append, List.nil_append]
  rw [decode_sendHeader, decodeSend_cons, hhalf]
  simp

/-- An event's bytes decode to it, whatever stands behind them (R60 to R66). -/
theorem decode_append_of_encode_eq {c : Config} {i : Instr} (hwf : i.WellFormed c) {bytes : List Byte}
    (hcode : encode i = .event bytes) (rest : List Byte) : decode (bytes ++ rest) = .event i rest := by
  cases i with
  | send flags did cid payload =>
      cases hcode
      exact decode_encodeSend flags did cid (by simpa [Instr.WellFormed, Instr.check] using hwf) rest
  | setMask1 m =>
      cases hcode
      rw [List.append_assoc, decode_bytesOfWord, decodeHeader_op2 _ rfl]
      exact decodeMask_bytesOfWord .setMask1 m rest
  | setMask2 m =>
      cases hcode
      rw [List.append_assoc, decode_bytesOfWord, decodeHeader_op3 _ rfl]
      exact decodeMask_bytesOfWord .setMask2 m rest
  | rxByte b =>
      cases hcode
      have hop : ((0x400000#24 ++ b : Word).extractLsb' 28 4).toNat = 4 := by
        rw [extractLsb'_append_of_le _ _ (by decide)]
        rfl
      have hzero : (0x400000#24 ++ b : Word).extractLsb' 8 20 = 0 := by
        rw [extractLsb'_append_of_le _ _ (by decide)]
        rfl
      rw [decode_bytesOfWord, decodeHeader_op4 rest hop, hzero, extractLsb'_append_low]
      rfl
  | tick =>
      cases hcode
      rw [decode_bytesOfWord, decodeHeader_op5 _ rfl]
      rfl
  | reset =>
      cases hcode
      rw [decode_bytesOfWord, decodeHeader_op6 _ rfl]
      rfl
  | reservedOp0 r =>
      cases hcode
      have hop : ((0x0#4 ++ r : Word).extractLsb' 28 4).toNat = 0 := by
        rw [extractLsb'_append_high]
        rfl
      rw [decode_bytesOfWord, decodeHeader_op0 rest hop, extractLsb'_append_low]
  | reservedOp7 r =>
      cases hcode
      have hop : ((0x7#4 ++ r : Word).extractLsb' 28 4).toNat = 7 := by
        rw [extractLsb'_append_high]
        rfl
      rw [decode_bytesOfWord, decodeHeader_op7 rest hop, extractLsb'_append_low]
  | reservedOp8F r =>
      cases hcode
      have hop : 8 ≤ ((0b1#1 ++ r : Word).extractLsb' 28 4).toNat := by
        have htop := congrArg BitVec.toNat (extractLsb'_append_high 0b1#1 r)
        simp only [BitVec.extractLsb'_toNat, Nat.shiftRight_eq_div_pow, BitVec.toNat_ofNat] at htop ⊢
        omega
      rw [decode_bytesOfWord, decodeHeader_op8F rest hop, extractLsb'_append_low]
  | _ => cases hcode

/-- A row's key selects the row (R67). -/
theorem decodeRxKey_of_encode_eq {c : Config} {row : RxRow} (hwf : row.toInstr.WellFormed c) {key : BitVec 10}
    (hcode : encode row.toInstr = .rxKey key) : decodeRxKey key = some row := by
  cases row with
  | idleOther b =>
      cases hcode
      have hstart : b ≠ startByte := by
        simpa [Instr.WellFormed, Instr.check, RxRow.toInstr, startByte] using hwf
      rw [decodeRxKey_encodeRxKey, rxDecode, if_neg hstart]
  | inData b =>
      cases hcode
      have hmarker : (b ≠ startByte ∧ b ≠ endByte) ∧ b ≠ escapeByte := by
        simpa [Instr.WellFormed, Instr.check, RxRow.toInstr, startByte, endByte, escapeByte] using hwf
      obtain ⟨⟨hstart, hend⟩, hescape⟩ := hmarker
      rw [decodeRxKey_encodeRxKey, rxDecode, if_neg hstart, if_neg hend, if_neg hescape]
  | escAny b =>
      cases hcode
      exact decodeRxKey_encodeRxKey .escPending b
  | idleStart => cases hcode; exact decodeRxKey_encodeRxKey .idle _
  | inStart => cases hcode; exact decodeRxKey_encodeRxKey .inPacket _
  | inEnd => cases hcode; exact decodeRxKey_encodeRxKey .inPacket _
  | inEscape => cases hcode; exact decodeRxKey_encodeRxKey .inPacket _

/-- The four bytes that a packet begins with (R59). -/
def packetHeader : Packet → Header
  | .telemetry h _ _ => h
  | .collision h _ _ => h
  | .sleepWarning h _ _ => h
  | .sleeping h _ _ => h
  | .sync h _ _ _ => h

/-- The class that a packet is a packet of (R68). -/
def packetClass : Packet → PacketClass
  | .telemetry _ _ _ => .telemetry
  | .collision _ _ _ => .collision
  | .sleepWarning _ _ _ => .sleepWarning
  | .sleeping _ _ _ => .sleeping
  | .sync _ _ _ _ => .sync

/-- The classifier gives a well-formed packet's header the packet's class: the check of each class shuts out the lines
of R68 above its own. -/
theorem classify_packetHeader {c : Config} {p : Packet} (hwf : p.toInstr.WellFormed c) :
    classify c (packetHeader p).did (packetHeader p).cid (packetHeader p).seq = packetClass p := by
  rw [classify_eq]
  cases p <;> simp_all [Instr.WellFormed, Instr.check, Packet.toInstr, packetHeader, packetClass]

/-- A packet's bytes are taken apart into its fields, under a configuration that gives it its class (R68, R69). -/
theorem decodePacket_packetBytes {c : Config} {p : Packet} (hwf : p.toInstr.WellFormed c) :
    decodePacket c (packetBytes p) = some p := by
  have hclass := classify_packetHeader hwf
  cases p <;> exact (decodePacket_append c _ _ _).trans (congrArg (slicePacket · _ _ _) hclass)

/-- An instruction is of one of the three formats: an input event, an RX_DECODE row or a packet. -/
theorem instr_format (i : Instr) :
    (∃ bytes, encode i = .event bytes) ∨ (∃ row : RxRow, i = row.toInstr) ∨ ∃ p : Packet, i = p.toInstr := by
  cases i with
  | rxIdleStart => exact .inr (.inl ⟨.idleStart, rfl⟩)
  | rxIdleOther b => exact .inr (.inl ⟨.idleOther b, rfl⟩)
  | rxInStart => exact .inr (.inl ⟨.inStart, rfl⟩)
  | rxInEnd => exact .inr (.inl ⟨.inEnd, rfl⟩)
  | rxInEscape => exact .inr (.inl ⟨.inEscape, rfl⟩)
  | rxInData b => exact .inr (.inl ⟨.inData b, rfl⟩)
  | rxEscAny b => exact .inr (.inl ⟨.escAny b, rfl⟩)
  | pktTelemetry h data chk => exact .inr (.inr ⟨.telemetry h data chk, rfl⟩)
  | pktCollision h data chk => exact .inr (.inr ⟨.collision h data chk, rfl⟩)
  | pktSleepWarning h data chk => exact .inr (.inr ⟨.sleepWarning h data chk, rfl⟩)
  | pktSleeping h data chk => exact .inr (.inr ⟨.sleeping h data chk, rfl⟩)
  | pktSync h rc data chk => exact .inr (.inr ⟨.sync h rc data chk, rfl⟩)
  | _ => exact .inl ⟨_, rfl⟩

/-- The code of an RX_DECODE row is a key (R67). -/
theorem encode_row (row : RxRow) : ∃ key, encode row.toInstr = .rxKey key := by
  cases row <;> exact ⟨_, rfl⟩

/-- The code of a packet is its bytes (R59). -/
theorem encode_packet (p : Packet) : encode p.toInstr = .packet (packetBytes p) := by
  cases p <;> rfl

/-- Every well-formed instruction's code decodes to it, with nothing over. -/
theorem decodeCode_encode {c : Config} {i : Instr} (hwf : i.WellFormed c) :
    decodeCode c (encode i) = some (i, []) := by
  rcases instr_format i with ⟨bytes, hcode⟩ | ⟨row, rfl⟩ | ⟨p, rfl⟩
  · have hdecode : decode bytes = .event i [] := by simpa using decode_append_of_encode_eq hwf hcode []
    simp only [hcode, decodeCode, hdecode]
  · obtain ⟨key, hcode⟩ := encode_row row
    simp only [hcode, decodeCode, decodeRxKey_of_encode_eq hwf hcode, Option.map_some]
  · simp only [encode_packet, decodeCode, decodePacket_packetBytes hwf, Option.map_some]

/-- Settles O2: each format's decoder gives back what the encoder was given, and an event's bytes end where the event
does. -/
theorem decodeOfEncode : Obligations.DecodeOfEncode := by
  intro c i hwf
  exact ⟨decodeCode_encode hwf, fun _ rest hcode => decode_append_of_encode_eq hwf hcode rest⟩

/-! ### Encode of decode -/

/-- Behind a must-be-zero test that ends in an event, the tested bits are zero. -/
theorem event_of_guard {P : Prop} [Decidable P] {d : Decoded} {i : Instr} {rest : List Byte}
    (h : (if P then .reserved else d) = .event i rest) : ¬ P ∧ d = .event i rest := by
  split at h
  · cases h
  · exact ⟨‹_›, h⟩

/-- A mask's operand word that decodes is the four bytes before the rest (R62). -/
theorem decodeMask_eq_event {mk : Word → Instr} {l rest : List Byte} {i : Instr}
    (h : decodeMask mk l = .event i rest) : ∃ m, i = mk m ∧ l = bytesOfWord m ++ rest := by
  unfold decodeMask at h
  split at h
  · rename_i a b c d l
    cases h
    exact ⟨wordOfBytes a b c d, rfl, by rw [bytesOfWord_wordOfBytes]; rfl⟩
  · cases h

/-- A SEND's operand word and payload that decode are the bytes before the rest (R61). -/
theorem decodeSend_eq_event {flags did cid : Byte} {l rest : List Byte} {i : Instr}
    (h : decodeSend flags did cid l = .event i rest) :
    ∃ payload, i = .send flags did cid payload ∧ payload.length < 65536
      ∧ l = bytesOfWord (0#16 ++ BitVec.ofNat 16 payload.length) ++ payload ++ rest := by
  match l, h with
  | a :: b :: c :: d :: l, h =>
      rw [decodeSend_cons] at h
      obtain ⟨hzero, h⟩ := event_of_guard h
      split at h
      · cases h
      · rename_i hwhole
        cases h
        have hlength : (l.take (c ++ d : BitVec 16).toNat).length = (c ++ d : BitVec 16).toNat := by
          simpa using hwhole
        have hword : wordOfBytes a b c d = 0#16 ++ (c ++ d : BitVec 16) :=
          eq_append_of_extractLsb' (k := 16) (m := 16) ((wordOfBytes_upper a b c d).trans (not_not.mp hzero))
            (wordOfBytes_lower a b c d)
        refine ⟨_, rfl, by rw [hlength]; exact (c ++ d : BitVec 16).isLt, ?_⟩
        rw [hlength, BitVec.ofNat_toNat, BitVec.setWidth_eq, ← hword, bytesOfWord_wordOfBytes]
        simp
  | [], h => cases h
  | [_], h => cases h
  | [_, _], h => cases h
  | [_, _, _], h => cases h

/-- What an event that decodes has to be: well formed under every configuration, its encoding the bytes before
`rest`. -/
def EncodedBefore (i : Instr) (bytes rest : List Byte) : Prop :=
  (∀ c, i.WellFormed c) ∧ ∃ front, encode i = .event front ∧ bytes = front ++ rest

/-- An event of one word. -/
theorem encodedBefore_of_word {i : Instr} {w v : Word} (hwf : ∀ c, i.WellFormed c)
    (hcode : encode i = .event (bytesOfWord v)) (hw : w = v) (rest : List Byte) :
    EncodedBefore i (bytesOfWord w ++ rest) rest :=
  ⟨hwf, _, hcode, congrArg (bytesOfWord · ++ rest) hw⟩

/-- An event of a header word and further bytes. -/
theorem encodedBefore_of_operands {i : Instr} {w v : Word} {operands : List Byte} (hwf : ∀ c, i.WellFormed c)
    (hcode : encode i = .event (bytesOfWord v ++ operands)) (hw : w = v) (rest : List Byte) :
    EncodedBefore i (bytesOfWord w ++ (operands ++ rest)) rest :=
  ⟨hwf, _, hcode, by rw [List.append_assoc]; exact congrArg (bytesOfWord · ++ (operands ++ rest)) hw⟩

/-- An event that decodes from a header word and the bytes behind it is encoded there (R60 to R66). -/
theorem encodedBefore_of_decodeHeader {w : Word} {l rest : List Byte} {i : Instr}
    (h : decodeHeader w l = .event i rest) : EncodedBefore i (bytesOfWord w ++ l) rest := by
  match hop : (w.extractLsb' 28 4).toNat with
  | 0 =>
      rw [decodeHeader_op0 l hop] at h
      cases h
      exact encodedBefore_of_word (fun _ => rfl) rfl (eq_op_append (op := 0) hop rfl) l
  | 1 =>
      rw [decodeHeader_op1 l hop] at h
      obtain ⟨hzero, h⟩ := event_of_guard h
      obtain ⟨payload, rfl, hlength, rfl⟩ := decodeSend_eq_event h
      refine encodedBefore_of_operands ?_ ?_ (eq_sendHeader hop (not_not.mp hzero)) rest
      · exact fun _ => decide_eq_true hlength
      · rw [encode, encodeSend, List.append_assoc]
  | 2 =>
      rw [decodeHeader_op2 l hop] at h
      obtain ⟨hzero, h⟩ := event_of_guard h
      obtain ⟨m, rfl, rfl⟩ := decodeMask_eq_event h
      exact encodedBefore_of_operands (fun _ => rfl) rfl (eq_op_append (op := 2) hop (not_not.mp hzero)) rest
  | 3 =>
      rw [decodeHeader_op3 l hop] at h
      obtain ⟨hzero, h⟩ := event_of_guard h
      obtain ⟨m, rfl, rfl⟩ := decodeMask_eq_event h
      exact encodedBefore_of_operands (fun _ => rfl) rfl (eq_op_append (op := 3) hop (not_not.mp hzero)) rest
  | 4 =>
      rw [decodeHeader_op4 l hop] at h
      obtain ⟨hzero, h⟩ := event_of_guard h
      cases h
      exact encodedBefore_of_word (fun _ => rfl) rfl (eq_rxByteHeader hop (not_not.mp hzero)) l
  | 5 =>
      rw [decodeHeader_op5 l hop] at h
      obtain ⟨hzero, h⟩ := event_of_guard h
      cases h
      exact encodedBefore_of_word (fun _ => rfl) rfl (eq_op_append (op := 5) hop (not_not.mp hzero)) l
  | 6 =>
      rw [decodeHeader_op6 l hop] at h
      obtain ⟨hzero, h⟩ := event_of_guard h
      cases h
      exact encodedBefore_of_word (fun _ => rfl) rfl (eq_op_append (op := 6) hop (not_not.mp hzero)) l
  | 7 =>
      rw [decodeHeader_op7 l hop] at h
      cases h
      exact encodedBefore_of_word (fun _ => rfl) rfl (eq_op_append (op := 7) hop rfl) l
  | n + 8 =>
      have hge : 8 ≤ (w.extractLsb' 28 4).toNat := hop ▸ Nat.le_add_left 8 n
      rw [decodeHeader_op8F l hge] at h
      cases h
      exact encodedBefore_of_word (fun _ => rfl) rfl (eq_topBitHeader hge) l

/-- Settles O3: four bytes are those of their word, and what decodes behind a header word is encoded there. -/
theorem encodeOfDecode : Obligations.EncodeOfDecode := by
  intro bytes rest i h
  unfold decode at h
  split at h
  · rename_i a b c d l
    have hencoded := encodedBefore_of_decodeHeader h
    rwa [bytesOfWord_wordOfBytes] at hencoded
  · cases h

end Sys2Proof
end

section
/-! PROOFS of the family 30_encoding.md: written words (R60 to R67), refused inputs (R66), the length of a frame (R76),
the telemetry record (R71, R166), the escape masks (R57) and the rows of RX_DECODE (R67). -/

namespace Sys2Proof.Machine

/-! ### Written words -/

/-- Settles O1: each word is decoded as written. -/
theorem writtenWordsDecode : Obligations.WrittenWordsDecode := by
  have hsend := decode_encodeSend 0x0A 0x13 0x01 (payload := [0xD8]) (by decide) []
  refine ⟨hsend, ?_, ?_, ?_, ?_, ?_, ?_, ?_, ?_, ?_⟩ <;> decide

/-! ### Reserved and illegal inputs -/

/-- A must-be-zero bit that is set at the port taken next stops the machine (R66). -/
theorem step_of_decode_reserved {s : State} {p : Port} {ports : List Port} (hsched : s.sched = p :: ports)
    (hdecode : decode (portBytes s p) = .reserved) : step s = .refused .reservedEncoding := by
  simp [step, fetch, hsched, hdecode]

/-- A header word with no meaning decodes to a set must-be-zero bit, or to a row that is refused in every state
(R66). -/
theorem decodeHeader_of_headerReserved {w : Word} (h : headerReserved w) (rest : List Byte) :
    decodeHeader w rest = .reserved
      ∨ ∃ i, decodeHeader w rest = .event i rest
          ∧ ∀ s, holdsSend i s = false ∧ exec i s = .refused .reservedEncoding := by
  rcases h with hop | hop | ⟨hop, hset⟩ | ⟨hop, hset⟩ | ⟨hop, hset⟩ | ⟨hop, hset⟩ | ⟨hop, hset⟩ | ⟨hop, hset⟩
  · exact .inr ⟨_, decodeHeader_op0 rest hop, fun _ => ⟨rfl, rfl⟩⟩
  · rcases Nat.eq_or_lt_of_le hop with hop | hop
    · exact .inr ⟨_, decodeHeader_op7 rest hop.symm, fun _ => ⟨rfl, rfl⟩⟩
    · exact .inr ⟨_, decodeHeader_op8F rest hop, fun _ => ⟨rfl, rfl⟩⟩
  · exact .inl ((decodeHeader_op1 rest hop).trans (if_pos hset))
  · exact .inl ((decodeHeader_op2 rest hop).trans (if_pos hset))
  · exact .inl ((decodeHeader_op3 rest hop).trans (if_pos hset))
  · exact .inl ((decodeHeader_op4 rest hop).trans (if_pos hset))
  · exact .inl ((decodeHeader_op5 rest hop).trans (if_pos hset))
  · exact .inl ((decodeHeader_op6 rest hop).trans (if_pos hset))

/-- A step is refused where the header word at the port taken next has no meaning (R66). -/
theorem step_of_headerReserved {s : State} {p : Port} {ports : List Port} {a b c d : Byte} {rest : List Byte}
    (hsched : s.sched = p :: ports) (hport : portBytes s p = a :: b :: c :: d :: rest)
    (h : headerReserved (a ++ b ++ c ++ d)) : step s = .refused .reservedEncoding := by
  rcases decodeHeader_of_headerReserved h rest with hdecode | ⟨i, hdecode, hi⟩
  · exact step_of_decode_reserved hsched (hport ▸ hdecode)
  · obtain ⟨hholds, -⟩ := hi s
    rw [stepRunsDecodedEvent s p ports i rest hsched (hport ▸ hdecode) hholds]
    exact (hi _).2

/-- A SEND beyond MAX_TX_PAYLOAD is refused, whether its slot is busy or not (R66, log 18). -/
theorem execSend_of_too_long (flags did cid : Byte) {payload : List Byte} {s : State}
    (h : s.cfg.maxTxPayload.val < payload.length) : execSend flags did cid payload s = .refused .payloadTooLong :=
  if_pos h

/-- A step is refused where a SEND beyond MAX_TX_PAYLOAD stands whole at the port taken next (R66, log 21). -/
theorem step_of_long_send {s : State} {p : Port} {ports : List Port} {b c d g h : Byte} {l : List Byte}
    (hsched : s.sched = p :: ports) (hport : portBytes s p = 0x10 :: b :: c :: d :: 0 :: 0 :: g :: h :: l)
    (hwhole : (g ++ h : BitVec 16).toNat ≤ l.length) (hlong : s.cfg.maxTxPayload.val < (g ++ h : BitVec 16).toNat) :
    step s = .refused .payloadTooLong := by
  have hdecode : decode (portBytes s p) =
      .event (.send b c d (l.take (g ++ h : BitVec 16).toNat)) (l.drop (g ++ h : BitVec 16).toNat) := by
    rw [hport, decode_sendHeader, decodeSend_cons, if_neg (by decide), if_neg (Nat.not_lt.mpr hwhole)]
  have hlength : s.cfg.maxTxPayload.val < (l.take (g ++ h : BitVec 16).toNat).length := by
    rwa [List.length_take, Nat.min_eq_left hwhole]
  have hholds : holdsSend (.send b c d (l.take (g ++ h : BitVec 16).toNat)) s = false := by
    rw [← Bool.not_eq_true, holdsSend_send]
    exact fun hfits => Nat.not_le.mpr hlength hfits.1
  rw [stepRunsDecodedEvent s p ports _ _ hsched hdecode hholds]
  exact execSend_of_too_long b c d (by simpa only [setPortBytes_cfg] using hlength)

/-- Settles O4: the header word, SEND's operand word and SEND's length each decide the step alone, and the rows of the
reserved OPs refuse by their meaning. -/
theorem reservedInputsRefused : Obligations.ReservedInputsRefused := by
  refine ⟨fun s p ports a b c d rest hsched hport => ⟨step_of_headerReserved hsched hport, ?_, ?_⟩,
    fun _ _ => rfl, fun _ _ => rfl, fun _ _ => rfl⟩
  · rintro e f g h l rfl rfl hset
    apply step_of_decode_reserved hsched
    rw [hport, decode_sendHeader, decodeSend_cons, if_pos hset]
  · rintro g h l rfl rfl hwhole hlong
    exact step_of_long_send hsched hport hwhole hlong

/-! ### The length of a frame -/

/-- A byte's escaped form has one byte more where the byte is a marker (40_byte_codec.md R80). -/
theorem escEnc_length (b : Byte) : (escEnc b).length = 1 + if isMarker b then 1 else 0 := by
  unfold escEnc
  split <;> rfl

/-- Escaping adds one byte for each marker (40_byte_codec.md R81). -/
theorem escape_length (l : List Byte) : (escape l).length = l.length + l.countP isMarker := by
  induction l with
  | nil => rfl
  | cons b l ih =>
      rw [escape_cons, List.length_append, escEnc_length, ih, List.length_cons, List.countP_cons]
      omega

/-- Between a frame's markers stand four header bytes, the payload and the checksum (R58). -/
theorem frameBody_length (flags did cid seq : Byte) (p : List Byte) :
    (frameBody flags did cid seq p).length = 5 + p.length := by
  simp [frameBody]
  omega

/-- A frame's length: the two markers, the body, and one byte more for each marker in the body (R76). -/
theorem frame_length (flags did cid seq : Byte) (p : List Byte) :
    (frame flags did cid seq p).length = 7 + p.length + (frameBody flags did cid seq p).countP isMarker := by
  simp only [frame, List.length_append, List.length_singleton, escape_length, frameBody_length]
  omega

/-- Settles O29: the body's markers are none of its bytes at the least and all of them at the most. -/
theorem frameLengthBounds : Obligations.FrameLengthBounds := by
  intro flags did cid seq p
  have hcount := List.countP_le_length (p := isMarker) (l := frameBody flags did cid seq p)
  rw [frameBody_length] at hcount
  rw [frame_length]
  refine ⟨by omega, by omega, fun hplain => ?_⟩
  have hzero : (frameBody flags did cid seq p).countP isMarker = 0 :=
    List.countP_eq_zero.mpr fun b hb => Bool.not_eq_true _ ▸ hplain b hb
  rw [hzero, Nat.add_zero]

/-! ### Telemetry samples -/

/-- The record's bytes for the field of bit `x.1`, whose four data bytes are the `x.2`-th of its group (R71, R73). -/
def fieldBytes (group : Byte) (data : List Byte) (x : Nat × Nat) : List Byte :=
  [group, BitVec.ofNat 8 x.1] ++ (data.drop (4 * x.2)).take 4

/-- The value read from the next four data bytes is written as these bytes (R166, R168). -/
theorem valueBytes_be32 {l : List Byte} (h : 4 ≤ l.length) : valueBytes (be32 l 0) = l.take 4 := by
  match l, h with
  | a :: b :: c :: d :: l, _ => exact bytesOfWord_wordOfBytes a b c d

theorem readFields_length (group : Byte) (bits : List Nat) (data : List Byte) :
    (readFields group bits data).length = bits.length := by
  induction bits generalizing data with
  | nil => rfl
  | cons b bits ih => simp only [readFields, List.length_cons, ih]

/-- The fields of a group whose first `n` have been read, as record bytes: each bears its own four data bytes (R166). -/
theorem readFields_flatMap_fieldRecord (group : Byte) (bits : List Nat) (n : Nat) {data : List Byte}
    (h : 4 * (n + bits.length) ≤ data.length) :
    (readFields group bits (data.drop (4 * n))).flatMap fieldRecord =
      (bits.zipIdx n).flatMap (fieldBytes group data) := by
  induction bits generalizing n with
  | nil => rfl
  | cons b bits ih =>
      rw [List.length_cons] at h
      have hvalue : valueBytes (be32 (data.drop (4 * n)) 0) = (data.drop (4 * n)).take 4 :=
        valueBytes_be32 (by rw [List.length_drop]; omega)
      have hnext : (data.drop (4 * n)).drop fieldWidthBytes = data.drop (4 * (n + 1)) := List.drop_drop
      rw [readFields, hnext, List.flatMap_cons, List.zipIdx_cons, List.flatMap_cons, ih (n + 1) (by omega), fieldRecord,
        hvalue]
      rfl

/-- A sample of the expected length gives the record of its fields, group 1 before group 2 (R166). -/
theorem telemetryEvent_of_length {m1 m2 : Word} {data : List Byte} (h : data.length = expectedLength m1 m2)
    (warn0 : Byte) :
    eventRecord (telemetryEvent m1 m2 data warn0) =
      [0x05, warn0, BitVec.ofNat 8 ((activeBits m1).length + (activeBits m2).length)]
        ++ (activeBits m1).zipIdx.flatMap (fieldBytes 0x01 data)
        ++ (activeBits m2).zipIdx.flatMap (fieldBytes 0x02 (data.drop (4 * (activeBits m1).length))) := by
  have hlength : data.length = 4 * ((activeBits m1).length + (activeBits m2).length) := h
  have hgroup1 := readFields_flatMap_fieldRecord 0x01 (activeBits m1) 0 (data := data) (by omega)
  have hgroup2 := readFields_flatMap_fieldRecord 0x02 (activeBits m2) 0
    (data := data.drop (4 * (activeBits m1).length)) (by rw [List.length_drop]; omega)
  rw [Nat.mul_zero, List.drop_zero] at hgroup1 hgroup2
  rw [telemetryEvent, if_pos h, eventRecord, List.length_append, readFields_length, readFields_length,
    List.flatMap_append, ← hgroup1, ← hgroup2, List.append_assoc]
  rfl

/-- Settles O34: the sample's one record, with group 2's bytes counted from where group 1's end. -/
theorem telemetrySampleDelivered : Obligations.TelemetrySampleDelivered := by
  intro s h data chk hlength
  have hrecord := telemetryEvent_of_length (m1 := s.mask1) (m2 := s.mask2) hlength (warnOf (h.bytes ++ data) chk)
  have hgroup2 : fieldBytes 0x02 (data.drop (4 * (activeBits s.mask1).length)) = fun x =>
      [0x02, BitVec.ofNat 8 x.1] ++ (data.drop (4 * (activeBits s.mask1).length + 4 * x.2)).take 4 := by
    funext x
    rw [fieldBytes, List.drop_drop]
  rw [hgroup2] at hrecord
  have hexec : exec (.pktTelemetry h data chk) s = .next (emitRecords s [eventRecord
      (telemetryEvent s.mask1 s.mask2 data (checksumWarning (h.bytes ++ data) chk))]) := rfl
  rw [hexec, checksumWarning_eq_warnOf, hrecord]
  rfl

/-! ### Escaped bytes and the rows of the decode table -/

/-- RX_BYTE is the row that the decode table gives for RX_STATE and the byte (R67). -/
theorem exec_rxByte_of_rxDecode {st : RxState} {s : State} (hst : s.rxState = st) {b : Byte} {row : RxRow}
    (hrow : rxDecode st b = row) : exec (.rxByte b) s = exec row.toInstr s := by
  subst hst hrow
  exact execRxByte_eq b s

/-- Settles O13: the masks are checked marker by marker; in ESC_PENDING the decoded byte is stored. -/
theorem escapeTransformIdentity : Obligations.EscapeTransformIdentity := by
  refine ⟨rfl, rfl, rfl, ?_, fun s x hesc hroom => ?_⟩
  · rintro x (rfl | rfl | rfl) <;> decide
  · have hrow : exec (.rxByte x) s = exec (.rxEscAny x) s :=
      exec_rxByte_of_rxDecode hesc (b := x) (row := .escAny x) rfl
    have hstore : exec (.rxEscAny x) s = .next (storeByte (x ||| decodeMaskByte) s) := if_pos hesc
    rw [hrow, hstore, storeByte_eq, if_pos hroom]
    rfl

/-- Settles O18: the decode table's row for each state and class, and that the decoder never stops. -/
theorem receivedByteRunsItsRow : Obligations.ReceivedByteRunsItsRow := by
  intro s b
  refine ⟨fun hst hb => ?_, fun hst hb => ?_, fun hst hb => ?_, fun hst hb => ?_, fun hst hb => ?_,
    fun hst hstart hend hescape => ?_, fun hst => ?_, execRxByte_next b s⟩
  · exact exec_rxByte_of_rxDecode hst (b := b) (row := .idleStart) (if_pos hb)
  · exact exec_rxByte_of_rxDecode hst (b := b) (row := .idleOther b) (if_neg hb)
  · exact exec_rxByte_of_rxDecode hst (b := b) (row := .inStart) (if_pos hb)
  · exact exec_rxByte_of_rxDecode hst (row := .inEnd) (by rw [hb]; rfl)
  · exact exec_rxByte_of_rxDecode hst (row := .inEscape) (by rw [hb]; rfl)
  · exact exec_rxByte_of_rxDecode hst (b := b) (row := .inData b)
      ((if_neg hstart).trans ((if_neg hend).trans (if_neg hescape)))
  · exact exec_rxByte_of_rxDecode hst (b := b) (row := .escAny b) rfl

end Sys2Proof.Machine
end

section
/-! PROOFS of the family 40_byte_codec.md: the escape (R80, R81), the rows of the received-byte table (R83 to R89), the
stream decoded (R90), and the codec's two directions together (R91, R92, with 41_framer.md R104). -/

namespace Sys2Proof.Machine

/-! ### The escape -/

/-- Settles O14: the two branches of ESC_ENC. -/
theorem escEncOfByte : Obligations.EscEncOfByte := by
  refine fun b => ⟨fun hmarker => ?_, fun hother => ?_⟩
  · exact if_pos ((isMarker_iff b).mpr hmarker)
  · exact if_neg (mt (isMarker_iff b).mp hother)

/-- The second byte of an escape pair that the encoder writes (R80). -/
def IsPairSecond (x : Byte) : Prop := x = 0x05 ∨ x = 0x50 ∨ x = 0x23

/-- The second byte of a pair is no marker (R57). -/
theorem IsPairSecond.not_marker {x : Byte} (h : IsPairSecond x) : isMarker x = false := by
  rcases h with rfl | rfl | rfl <;> decide

/-- A byte's escape is ESCAPE with the second byte of a pair, or the byte itself where it is no marker (R80). -/
theorem escEnc_eq_pair_or_self (b : Byte) :
    (∃ x, IsPairSecond x ∧ escEnc b = [0xAB, x]) ∨ (isMarker b = false ∧ escEnc b = [b]) := by
  rcases escEnc_cases b with ⟨-, h⟩ | ⟨-, h⟩ | ⟨-, h⟩ | hplain
  · exact .inl ⟨0x05, .inl rfl, h⟩
  · exact .inl ⟨0x50, .inr (.inl rfl), h⟩
  · exact .inl ⟨0x23, .inr (.inr rfl), h⟩
  · exact .inr hplain

/-- Every marker in an escaped list is an ESCAPE (R81). -/
theorem eq_escape_of_mem_escape {m : Byte} {l : List Byte} (hmem : m ∈ escape l) (hmarker : isMarker m = true) :
    m = 0xAB := by
  obtain ⟨b, -, hb⟩ := List.mem_flatMap.mp hmem
  rcases escEnc_eq_pair_or_self b with ⟨x, hx, henc⟩ | ⟨hplain, henc⟩
  · rw [henc, List.mem_pair] at hb
    rcases hb with rfl | rfl
    · rfl
    · simp [hx.not_marker] at hmarker
  · rw [henc, List.mem_singleton] at hb
    simp [hb, hplain] at hmarker

/-- An ESCAPE in an escaped list opens a pair (R81). -/
theorem escape_eq_append_escape {l pre post : List Byte} (h : escape l = pre ++ 0xAB :: post) :
    ∃ x post', post = x :: post' ∧ IsPairSecond x := by
  induction l generalizing pre with
  | nil => simp at h
  | cons b l ih =>
      rw [escape_cons] at h
      rcases escEnc_eq_pair_or_self b with ⟨x, hx, henc⟩ | ⟨hplain, henc⟩ <;> rw [henc] at h
      · rcases List.cons_eq_append_iff.mp h with ⟨-, hpair⟩ | ⟨pre', -, htail⟩
        · exact ⟨x, escape l, (List.cons.inj hpair).2, hx⟩
        · rcases List.cons_eq_append_iff.mp htail with ⟨-, hsecond⟩ | ⟨pre'', -, hrest⟩
          · rw [← (List.cons.inj hsecond).1] at hx
            exact absurd hx.not_marker (by decide)
          · exact ih hrest
      · rcases List.cons_eq_append_iff.mp h with ⟨-, hself⟩ | ⟨pre', -, hrest⟩
        · rw [← (List.cons.inj hself).1] at hplain
          exact absurd hplain (by decide)
        · exact ih hrest

/-- Settles O15: the length counts the markers, and byte by byte the escape is a pair or no marker. -/
theorem escapeOfList : Obligations.EscapeOfList := by
  refine ⟨escape_nil, escape_cons, fun l => ⟨escape_length l, fun hstart => ?_, fun hend => ?_, fun _ _ => ?_⟩⟩
  · exact absurd (eq_escape_of_mem_escape hstart (by decide)) (by decide)
  · exact absurd (eq_escape_of_mem_escape hend (by decide)) (by decide)
  · exact escape_eq_append_escape

/-! ### The rows of the received-byte table, each as RX_BYTE and as itself -/

/-- Settles O19: the row of START in IDLE. -/
theorem idleStartOpensPacket : Obligations.IdleStartOpensPacket := by
  intro s hidle
  have hbyte : exec (.rxByte 0x8D) s = exec .rxIdleStart s := exec_rxByte_of_rxDecode hidle (row := .idleStart) rfl
  have hrow : exec .rxIdleStart s = .next { s with rxBuf := [], rxState := .inPacket } := if_pos hidle
  exact ⟨hrow, hbyte.trans hrow⟩

/-- Settles O20: the row of any other byte in IDLE. -/
theorem idleOtherDiscarded : Obligations.IdleOtherDiscarded := by
  intro s b hidle hb
  have hbyte : exec (.rxByte b) s = exec (.rxIdleOther b) s :=
    exec_rxByte_of_rxDecode hidle (row := .idleOther b) (if_neg hb)
  exact ⟨rfl, hbyte⟩

/-- Settles O21: the row of START in a packet, which reports a buffer that is not empty. -/
theorem startInPacketTruncates : Obligations.StartInPacketTruncates := by
  intro s hin t
  have hbyte : exec (.rxByte 0x8D) s = exec .rxInStart s := exec_rxByte_of_rxDecode hin (row := .inStart) rfl
  have hrow : exec .rxInStart s = .next t := by
    refine (if_pos hin).trans (congrArg _ ?_)
    by_cases hempty : s.rxBuf = []
    · apply State.ext <;> simp [t, hin, hempty]
    · have hheld := List.length_pos_iff.mpr hempty
      apply State.ext <;> simp [t, hin, hempty, hheld, eventRecord, malformedCode]
  exact ⟨hrow, hbyte.trans hrow⟩

/-- Settles O23: the row of ESCAPE in a packet. -/
theorem escapeInPacketArms : Obligations.EscapeInPacketArms := by
  intro s hin
  have hbyte : exec (.rxByte 0xAB) s = exec .rxInEscape s := exec_rxByte_of_rxDecode hin (row := .inEscape) rfl
  have hrow : exec .rxInEscape s = .next { s with rxState := .escPending } := if_pos hin
  exact ⟨hrow, hbyte.trans hrow⟩

/-- Settles O24: the row of a data byte stores it, and the state stays IN_PACKET where it has room. -/
theorem dataByteStored : Obligations.DataByteStored := by
  intro s b hin hstart hend hescape t
  have hplain : isMarker b = false :=
    Bool.eq_false_iff.mpr fun h => ((isMarker_iff b).mp h).elim hstart (Or.elim · hend hescape)
  have hbyte : exec (.rxByte b) s = exec (.rxInData b) s :=
    exec_rxByte_of_rxDecode hin (row := .inData b) ((if_neg hstart).trans ((if_neg hend).trans (if_neg hescape)))
  have hrow : exec (.rxInData b) s = .next t := by
    refine (if_pos ⟨hin, hplain⟩).trans (congrArg _ ?_)
    rw [storeByte_eq, ← hin]
  exact ⟨hrow, hbyte.trans hrow⟩

/-- Settles O25: the row of any byte in ESC_PENDING stores the decoded byte. -/
theorem escapedByteStored : Obligations.EscapedByteStored := by
  intro s b hesc t
  have hbyte : exec (.rxByte b) s = exec (.rxEscAny b) s := exec_rxByte_of_rxDecode hesc (row := .escAny b) rfl
  have hrow : exec (.rxEscAny b) s = .next t := (if_pos hesc).trans (congrArg _ (storeByte_eq _ s))
  exact ⟨hrow, hbyte.trans hrow⟩

/-! ### END -/

/-- DISPATCH runs the packet as the instruction that it is (43_dispatcher.md R140). -/
theorem dispatchPacket_eq_exec (p : Packet) (s : State) : dispatchPacket p s = exec p.toInstr s := by
  cases p <;> rfl

/-- The row of END closes what the buffer held, from IDLE with the buffer empty (R86). -/
theorem exec_rxInEnd {s : State} (hin : s.rxState = .inPacket) :
    exec .rxInEnd s = closePacket s.rxBuf { s with rxState := .idle, rxBuf := [] } :=
  if_pos hin

/-- END where the buffer holds a packet (41_framer.md R105). -/
theorem exec_rxInEnd_of_packet {s : State} (hin : s.rxState = .inPacket) {p : Packet}
    (hdecode : decodePacket s.cfg s.rxBuf = some p) :
    exec .rxInEnd s = exec p.toInstr { s with rxState := .idle, rxBuf := [] } := by
  rw [exec_rxInEnd hin, closePacket, hdecode]
  exact dispatchPacket_eq_exec p _

/-- END where the buffer is too short for a packet (41_framer.md R105). -/
theorem exec_rxInEnd_of_short {s : State} (hin : s.rxState = .inPacket)
    (hdecode : decodePacket s.cfg s.rxBuf = none) :
    exec .rxInEnd s = .next { s with rxState := .idle, rxBuf := [], evLog := s.evLog ++ [[0x0B, 0x01]] } := by
  rw [exec_rxInEnd hin, closePacket, hdecode]
  rfl

/-- A buffer of five bytes or more is sliced by the class of its header (30_encoding.md R69). -/
theorem decodePacket_of_classify {s : State} {h : Header} {body : List Byte} {chk : Byte} {cls : PacketClass}
    (hbuf : s.rxBuf = h.bytes ++ body ++ [chk]) (hcls : classify s.cfg h.did h.cid h.seq = cls) :
    decodePacket s.cfg s.rxBuf = slicePacket cls h body chk := by
  rw [hbuf, decodePacket_append, hcls]

/-- END leaves IDLE with the buffer empty and one record more, whatever the buffer held (R86). -/
theorem exec_rxInEnd_next {s : State} (hin : s.rxState = .inPacket) :
    ∃ t record, exec .rxInEnd s = .next t ∧ t.rxState = .idle ∧ t.rxBuf = [] ∧ t.evLog = s.evLog ++ [record] := by
  rw [exec_rxInEnd hin]
  rcases closePacket_cases s.rxBuf { s with rxState := .idle, rxBuf := [] } with
    ⟨record, -, hclose⟩ | ⟨q, record, -, -, hclose⟩
  · exact ⟨_, record, hclose, rfl, rfl, rfl⟩
  · exact ⟨_, record, hclose, by simp, by simp, by simp⟩

/-- RX_BYTE of END in a packet is its row (R82). -/
theorem exec_rxByte_end {s : State} (hin : s.rxState = .inPacket) : exec (.rxByte 0xD8) s = exec .rxInEnd s :=
  exec_rxByte_of_rxDecode hin (row := .inEnd) rfl

/-- Settles O22: the buffer's slicing by length and class says which instruction END runs, or that it is SHORT. -/
theorem endClosesPacket : Obligations.EndClosesPacket := by
  intro s hin
  refine ⟨fun hshort => ?_, fun h chk hbuf hcls => ?_, fun h rc data chk hbuf hcls => ?_, fun h data chk hbuf => ?_,
    exec_rxByte_end hin, exec_rxInEnd_next hin⟩
  · exact exec_rxInEnd_of_short hin (decodePacket_of_length_lt s.cfg hshort)
  · exact exec_rxInEnd_of_short hin (decodePacket_of_classify (body := []) (by simpa using hbuf) hcls)
  · exact exec_rxInEnd_of_packet hin (decodePacket_of_classify (body := rc :: data) hbuf hcls)
  · refine ⟨fun hcls => ?_, fun hcls => ?_, fun hcls => ?_, fun hcls => ?_⟩ <;>
      exact exec_rxInEnd_of_packet hin (decodePacket_of_classify hbuf hcls)

/-! ### The stream -/

/-- The bytes that receiving `b` appends to RX_BUF (R90), read off the rules R83 to R89 without the step. -/
def storedBytes (s : State) (b : Byte) : List Byte :=
  if s.rxState = .idle ∨ s.cfg.rxBufMax ≤ s.rxBuf.length then []
  else if s.rxState = .escPending then [b ||| 0x88]
  else if b = 0x8D ∨ b = 0xD8 ∨ b = 0xAB then [] else [b]

theorem storedBytes_of_idle {s : State} (hidle : s.rxState = .idle) (b : Byte) : storedBytes s b = [] :=
  if_pos (.inl hidle)

theorem storedBytes_of_full {s : State} (hfull : ¬ s.rxBuf.length < s.cfg.rxBufMax) (b : Byte) : storedBytes s b = [] :=
  if_pos (.inr (Nat.not_lt.mp hfull))

theorem storedBytes_of_marker {s : State} (hin : s.rxState = .inPacket) {b : Byte}
    (hmarker : b = 0x8D ∨ b = 0xD8 ∨ b = 0xAB) : storedBytes s b = [] := by
  rw [storedBytes, if_neg (show s.rxState ≠ .escPending by simp [hin]), if_pos hmarker, ite_self]

theorem storedBytes_of_data {s : State} (hin : s.rxState = .inPacket) (hroom : s.rxBuf.length < s.cfg.rxBufMax)
    {b : Byte} (hdata : ¬ (b = 0x8D ∨ b = 0xD8 ∨ b = 0xAB)) : storedBytes s b = [b] := by
  rw [storedBytes, if_neg (by simp [hin, hroom]), if_neg (by simp [hin]), if_neg hdata]

theorem storedBytes_of_escPending {s : State} (hesc : s.rxState = .escPending)
    (hroom : s.rxBuf.length < s.cfg.rxBufMax) (b : Byte) : storedBytes s b = [b ||| 0x88] := by
  rw [storedBytes, if_neg (by simp [hesc, hroom]), if_pos hesc]

/-- RX_BYTE leaves the buffer with the byte's decoded form appended, or cleared with nothing appended (R83 to R89). -/
theorem exec_rxByte_rxBuf (s : State) (b : Byte) :
    ∃ t, exec (.rxByte b) s = .next t
      ∧ (t.rxBuf = s.rxBuf ++ storedBytes s b ∨ (t.rxBuf = [] ∧ storedBytes s b = [])) := by
  cases hst : s.rxState with
  | idle =>
      have hnone := storedBytes_of_idle hst b
      by_cases hb : b = 0x8D
      · subst hb
        exact ⟨_, (idleStartOpensPacket s hst).2, .inr ⟨rfl, hnone⟩⟩
      · exact ⟨s, (idleOtherDiscarded s b hst hb).2, .inl (by rw [hnone, List.append_nil])⟩
  | inPacket =>
      by_cases hmarker : b = 0x8D ∨ b = 0xD8 ∨ b = 0xAB
      · have hnone := storedBytes_of_marker hst hmarker
        rcases hmarker with rfl | rfl | rfl
        · exact ⟨_, (startInPacketTruncates s hst).2, .inr ⟨rfl, hnone⟩⟩
        · obtain ⟨t, -, hexec, -, hcleared, -⟩ := exec_rxInEnd_next hst
          exact ⟨t, (exec_rxByte_end hst).trans hexec, .inr ⟨hcleared, hnone⟩⟩
        · exact ⟨_, (escapeInPacketArms s hst).2, .inl (by rw [hnone, List.append_nil])⟩
      · obtain ⟨hstart, hend, hescape⟩ : b ≠ 0x8D ∧ b ≠ 0xD8 ∧ b ≠ 0xAB := by simpa using hmarker
        refine ⟨_, (dataByteStored s b hst hstart hend hescape).2, ?_⟩
        by_cases hroom : s.rxBuf.length < s.cfg.rxBufMax
        · left
          rw [if_pos hroom, storedBytes_of_data hst hroom hmarker]
        · right
          rw [if_neg hroom]
          exact ⟨rfl, storedBytes_of_full hroom b⟩
  | escPending =>
      refine ⟨_, (escapedByteStored s b hst).2, ?_⟩
      by_cases hroom : s.rxBuf.length < s.cfg.rxBufMax
      · left
        rw [if_pos hroom, storedBytes_of_escPending hst hroom]
      · right
        rw [if_neg hroom]
        exact ⟨rfl, storedBytes_of_full hroom b⟩

/-- The first byte of a stream decodes to the bytes that it stores (R90). -/
theorem unescape_cons_storedBytes {b : Byte} {s t : State} (hexec : exec (.rxByte b) s = .next t) (l : List Byte) :
    unescape (b :: l) s = (storedBytes s b ++ (unescape l t).1, (unescape l t).2) := by
  have hstored : appendedBytes s t = storedBytes s b := by
    obtain ⟨u, hu, hbuf⟩ := exec_rxByte_rxBuf s b
    obtain rfl : u = t := by simpa [hexec] using hu.symm
    rcases hbuf with happended | ⟨hcleared, hnone⟩
    · exact appendedBytes_of_append happended
    · rw [appendedBytes_of_cleared hcleared, hnone]
  rw [unescape_cons hexec, hstored]

/-- A stream is received to its end (R82), and `endState` is the RX_STATE that it leaves (R90). -/
theorem receive_next (l : List Byte) (s : State) :
    ∃ t, receive l s = .next t ∧ (unescape l s).2 = t.rxState := by
  induction l generalizing s with
  | nil => exact ⟨s, rfl, rfl⟩
  | cons b l ih =>
      obtain ⟨u, hu, -⟩ := exec_rxByte_rxBuf s b
      obtain ⟨t, hreceive, hend⟩ := ih u
      refine ⟨t, ?_, ?_⟩
      · rw [receive_cons, hu]
        exact hreceive
      · rw [unescape_cons_storedBytes hu]
        exact hend

/-- Settles O59: the fold byte by byte, and two deliveries from the state that the first leaves. -/
theorem unescapeOfStream : Obligations.UnescapeOfStream := by
  refine ⟨unescape_nil, fun s b l => ?_, fun s l m => ?_⟩
  · obtain ⟨t, hexec, hbuf⟩ := exec_rxByte_rxBuf s b
    exact ⟨t, hexec, hbuf, unescape_cons_storedBytes hexec l⟩
  · obtain ⟨t, hreceive, hend⟩ := receive_next l s
    exact ⟨t, hreceive, hend, receive_append hreceive, unescape_append hreceive m⟩

/-! ### What is escaped and received again -/

/-- A stream of one byte. -/
theorem receive_singleton (b : Byte) (s : State) : receive [b] s = exec (.rxByte b) s := by
  rw [receive_cons]
  cases exec (.rxByte b) s <;> rfl

/-- An escape pair with any second byte, received with room: what it stores and what it decodes to (R92). -/
theorem receive_pair {s : State} (hin : s.rxState = .inPacket) (hroom : s.rxBuf.length < s.cfg.rxBufMax) (x : Byte) :
    receive [0xAB, x] s = .next { s with rxBuf := s.rxBuf ++ [x ||| 0x88] }
      ∧ unescape [0xAB, x] s = ([x ||| 0x88], .inPacket) := by
  have harm := (escapeInPacketArms s hin).2
  have hstore := (escapedByteStored { s with rxState := .escPending } x rfl).2
  rw [if_pos hroom] at hstore
  have hdecoded : unescape [x] { s with rxState := .escPending } = ([x ||| 0x88], .inPacket) := by
    rw [unescape_cons_storedBytes hstore,
      storedBytes_of_escPending (s := { s with rxState := .escPending }) rfl hroom]
    rfl
  constructor
  · simp only [receive_cons 0xAB, harm, receive_singleton, hstore, ← hin]
  · rw [unescape_cons_storedBytes harm, storedBytes_of_marker hin (.inr (.inr rfl)), hdecoded]
    rfl

/-- Settles O17: the pair's second byte need not be one that the encoder writes. -/
theorem everyEscapePairAccepted : Obligations.EveryEscapePairAccepted :=
  fun _ x hin hroom => (receive_pair hin hroom x).1

/-- The escape of one byte, received with room: it stores and decodes to that byte (R80, R88, R89). -/
theorem receive_escEnc {s : State} (hin : s.rxState = .inPacket) (hroom : s.rxBuf.length < s.cfg.rxBufMax) (b : Byte) :
    receive (escEnc b) s = .next { s with rxBuf := s.rxBuf ++ [b] } ∧ unescape (escEnc b) s = ([b], .inPacket) := by
  obtain ⟨-, -, -, hmasks, -⟩ := escapeTransformIdentity
  by_cases hmarker : b = 0x8D ∨ b = 0xD8 ∨ b = 0xAB
  · obtain ⟨henc, hinverse, -⟩ := hmasks b hmarker
    have hpair := receive_pair hin hroom (b &&& 0x77)
    rwa [← henc, hinverse] at hpair
  · obtain ⟨hstart, hend, hescape⟩ : b ≠ 0x8D ∧ b ≠ 0xD8 ∧ b ≠ 0xAB := by simpa using hmarker
    have hstore := (dataByteStored s b hin hstart hend hescape).2
    rw [if_pos hroom] at hstore
    rw [(escEncOfByte b).2 hmarker, receive_singleton, unescape_cons_storedBytes hstore,
      storedBytes_of_data hin hroom hmarker, unescape_nil]
    exact ⟨hstore, congrArg (Prod.mk [b]) hin⟩

/-- The escape of a list, received with room: it stores and decodes to that list (R90, R91). -/
theorem receive_escape {s : State} {l : List Byte} (hin : s.rxState = .inPacket)
    (hroom : s.rxBuf.length + l.length ≤ s.cfg.rxBufMax) :
    receive (escape l) s = .next { s with rxBuf := s.rxBuf ++ l } ∧ unescape (escape l) s = (l, .inPacket) := by
  induction l generalizing s with
  | nil =>
      rw [List.append_nil, ← hin]
      exact ⟨rfl, rfl⟩
  | cons b l ih =>
      rw [List.length_cons] at hroom
      obtain ⟨hreceive, hdecoded⟩ := receive_escEnc hin (by omega) b
      obtain ⟨hreceive', hdecoded'⟩ := ih (s := { s with rxBuf := s.rxBuf ++ [b] }) hin (by simp; omega)
      rw [escape_cons, receive_append hreceive, unescape_append hreceive, hreceive', hdecoded, hdecoded',
        List.append_assoc]
      exact ⟨rfl, rfl⟩

/-- Settles O16: the round trip from an empty buffer. -/
theorem codecRoundTrip : Obligations.CodecRoundTrip := by
  intro s l hin hempty hfits
  have hreceive := (receive_escape (s := s) (l := l) hin (by simpa [hempty] using hfits)).1
  rwa [hempty, List.nil_append] at hreceive

/-- START outside ESC_PENDING opens a packet with an empty buffer and stores nothing (R83, R85). -/
theorem exec_rxByte_start {s : State} (hst : s.rxState ≠ .escPending) :
    storedBytes s 0x8D = [] ∧ ∃ t, exec (.rxByte 0x8D) s = .next t
      ∧ t.rxState = .inPacket ∧ t.rxBuf = [] ∧ t.cfg = s.cfg := by
  cases hcase : s.rxState with
  | idle => exact ⟨storedBytes_of_idle hcase _, _, (idleStartOpensPacket s hcase).2, rfl, rfl, rfl⟩
  | inPacket =>
      exact ⟨storedBytes_of_marker hcase (.inl rfl), _, (startInPacketTruncates s hcase).2, hcase, rfl, rfl⟩
  | escPending => exact absurd hcase hst

/-- END in a packet decodes to nothing and ends in IDLE (R86, R90). -/
theorem unescape_end {s : State} (hin : s.rxState = .inPacket) : unescape [endByte] s = ([], .idle) := by
  obtain ⟨t, -, hexec, hidle, -, -⟩ := exec_rxInEnd_next hin
  rw [endByte, unescape_cons_storedBytes ((exec_rxByte_end hin).trans hexec),
    storedBytes_of_marker hin (.inr (.inl rfl)), unescape_nil, hidle]
  rfl

/-- Markers around an escaped body that fits: the body is decoded (41_framer.md R104). -/
theorem unescape_framed {s : State} {body : List Byte} (hst : s.rxState ≠ .escPending)
    (hfits : body.length ≤ s.cfg.rxBufMax) :
    unescape ([startByte] ++ escape body ++ [endByte]) s = (body, .idle) := by
  obtain ⟨hnone, t, hstart, hin, hempty, hcfg⟩ := exec_rxByte_start hst
  obtain ⟨hreceive, hdecoded⟩ := receive_escape (s := t) (l := body) hin (by simpa [hempty, hcfg] using hfits)
  have hrest : unescape (escape body ++ [endByte]) t = (body, .idle) := by
    rw [unescape_append hreceive, hdecoded, unescape_end (s := { t with rxBuf := t.rxBuf ++ body }) hin,
      List.append_nil]
  rw [List.append_assoc, List.singleton_append, startByte, unescape_cons_storedBytes hstart, hnone, hrest]
  rfl

/-- Settles O60: the escape decodes to the list, and a frame to its body. -/
theorem unescapeOfEscapeAndFrame : Obligations.UnescapeOfEscapeAndFrame := by
  refine ⟨fun s l hin hroom => (receive_escape hin hroom).2, fun s flags did cid seq p hst hfits => ?_⟩
  have hbody : (frameBody flags did cid seq p).length ≤ s.cfg.rxBufMax := by
    rw [frameBody_length]
    omega
  exact unescape_framed hst hbody

end Sys2Proof.Machine
end

section
/-! PROOFS of the family 41_framer.md: the checksum (R100, R101), the bytes of a frame and its markers (R102 to R104), a
frame received again (R104, R110), and a response whose checksum is wrong (R107, with 42_correlation.md R125). -/

namespace Sys2Proof.Machine

/-! ### The checksum -/

/-- The checksum is what the byte sum lacks of 0xFF (R100, R102). -/
theorem checksum_eq_sub (c : List Byte) : checksum c = 0xFF - sum8 c :=
  (BitVec.allOnes_sub_eq_not (sum8 c)).symm

/-- The check of R101: a byte is the checksum where it makes the whole sum 0xFF. -/
theorem checksum_eq_iff (c : List Byte) (k : Byte) : checksum c = k ↔ sum8 (c ++ [k]) = 0xFF := by
  rw [checksum_eq_sub, sub_eq_iff_eq_add', sum8_append, sum8_cons, sum8_nil, add_zero, eq_comm]

/-- A content list with its checksum behind it sums to 0xFF (R101). -/
theorem sum8_append_checksum (c : List Byte) : sum8 (c ++ [checksum c]) = 0xFF :=
  (checksum_eq_iff c _).mp rfl

/-- The checksum sees a content list through its byte sum alone (R101). -/
theorem checksum_eq_checksum_iff (c c' : List Byte) : checksum c = checksum c' ↔ sum8 c = sum8 c' :=
  BitVec.not_inj

/-- The byte sum tells the two values of one changed byte apart (R101). -/
theorem sum8_replace_inj (pre post : List Byte) (b b' : Byte) :
    sum8 (pre ++ b :: post) = sum8 (pre ++ b' :: post) ↔ b = b' := by
  rw [sum8_append, sum8_append, sum8_cons, sum8_cons, add_right_inj, add_left_inj]

/-- Settles O26: the complement of a byte is 255 less its number, and the byte sum is the exact sum mod 256. -/
theorem checksumOfContent : Obligations.ChecksumOfContent := by
  refine ⟨fun c => ?_, rfl, rfl, rfl, rfl⟩
  rw [checksum, BitVec.toNat_not, sum8_toNat]

/-- Settles O27: each clause speaks of the byte sum, which one changed byte always moves. -/
theorem checksumLaw : Obligations.ChecksumLaw := by
  refine ⟨sum8_append_checksum, checksum_eq_iff, fun pre post b b' hchanged hsame => ?_,
    fun c c' => (checksum_eq_checksum_iff c c').mpr⟩
  rw [checksum_eq_checksum_iff, sum8_replace_inj] at hsame
  exact hchanged hsame

/-! ### The bytes of a frame -/

/-- Settles O28: FRAME with the checksum as a difference; the worked frames are evaluated. -/
theorem frameLayout : Obligations.FrameLayout := by
  refine ⟨fun flags did cid seq p => ?_, rfl, rfl⟩
  rw [← checksum_eq_sub]
  rfl

/-- Settles O30: the escaped body holds neither START nor END, so each counts once, at its place. -/
theorem frameHasOneStartOneEnd : Obligations.FrameHasOneStartOneEnd := by
  intro flags did cid seq p
  obtain ⟨-, -, hbody⟩ := escapeOfList
  obtain ⟨-, hstart, hend, -⟩ := hbody (frameBody flags did cid seq p)
  refine ⟨?_, rfl, ?_, List.getLast?_concat⟩
  · rw [frame, List.count_append, List.count_append, List.count_eq_zero.mpr hstart]
    rfl
  · rw [frame, List.count_append, List.count_append, List.count_eq_zero.mpr hend]
    rfl

/-! ### A frame received -/

/-- START outside ESC_PENDING opens a packet with an empty buffer; a partial packet that held a byte is reported as
truncated (R83, R85). -/
theorem exec_rxByte_start_eq {s : State} (hst : s.rxState ≠ .escPending) :
    exec (.rxByte 0x8D) s = .next { s with
      rxState := .inPacket
      rxBuf := []
      evLog := s.evLog ++ (if s.rxState = .inPacket ∧ s.rxBuf ≠ [] then [[0x0B, 0x02]] else []) } := by
  cases hcase : s.rxState with
  | idle =>
      rw [(idleStartOpensPacket s hcase).2, if_neg (by simp), List.append_nil]
  | inPacket =>
      rw [(startInPacketTruncates s hcase).2]
      by_cases hempty : s.rxBuf = [] <;> simp [hcase, hempty]
  | escPending => exact absurd hcase hst

/-- An escaped body and END, received in a packet with an empty buffer: CLOSE runs on the body (R86, R91). -/
theorem receive_escape_end {s : State} {body : List Byte} (hin : s.rxState = .inPacket) (hempty : s.rxBuf = [])
    (hfits : body.length ≤ s.cfg.rxBufMax) :
    receive (escape body ++ [endByte]) s = closePacket body { s with rxState := .idle, rxBuf := [] } := by
  have hstored : ({ s with rxBuf := body } : State).rxState = .inPacket := hin
  rw [receive_append (codecRoundTrip s body hin hempty hfits), receive_singleton, endByte]
  exact (exec_rxByte_end hstored).trans (exec_rxInEnd hstored)

/-- A body that fits, escaped between START and END and received outside ESC_PENDING: it is closed, after the report of
a partial packet (R104). -/
theorem receive_framed {s : State} {body : List Byte} (hst : s.rxState ≠ .escPending)
    (hfits : body.length ≤ s.cfg.rxBufMax) :
    receive ([startByte] ++ escape body ++ [endByte]) s =
      closePacket body { s with
        rxState := .idle
        rxBuf := []
        evLog := s.evLog ++ (if s.rxState = .inPacket ∧ s.rxBuf ≠ [] then [[0x0B, 0x02]] else []) } := by
  have hstart := (receive_singleton 0x8D s).trans (exec_rxByte_start_eq hst)
  rw [List.append_assoc, startByte, receive_append hstart]
  exact receive_escape_end rfl rfl hfits

/-- Settles O31: the frame's body is the raw packet, whose checksum holds. -/
theorem frameRoundTrip : Obligations.FrameRoundTrip := by
  intro s flags did cid seq p hst hfits packet
  have hbody : (frameBody flags did cid seq p).length ≤ s.cfg.rxBufMax := by
    rw [frameBody_length]
    omega
  exact ⟨receive_framed hst hbody, sum8_append_checksum _⟩

/-! ### A response whose checksum is wrong -/

/-- RESOLVE frees a slot of the table and keeps its timer (42_correlation.md R125). -/
theorem freeSlot_of_lt (s : State) {q : Byte} (hq : q.toNat < 255) :
    freeSlot s q = { s with slots := s.slots.set q.toNat ⟨false, (slotAt s q).timer⟩ } :=
  dif_pos hq

/-- A synchronous response to a pending number frees its slot and is delivered, whatever its checksum
(R107, 42_correlation.md R125). -/
theorem exec_pktSync_of_pending {s : State} {h : Header} (hq : h.seq.toNat < 255) (hpending : isPending s h.seq = true)
    (rc : Byte) (data : List Byte) (chk : Byte) :
    exec (.pktSync h rc data chk) s = .next { s with
      slots := s.slots.set h.seq.toNat ⟨false, (slotAt s h.seq).timer⟩
      evLog := s.evLog ++ [[0x03, h.seq, rc, checksumWarning (h.bytes ++ rc :: data) chk ||| responseWarning rc]
        ++ lengthBytes data.length ++ data] } := by
  have hexec : exec (.pktSync h rc data chk) s =
      .next (resolve h.seq rc data (checksumWarning (h.bytes ++ rc :: data) chk) s) := rfl
  rcases resolve_cases h.seq rc data (checksumWarning (h.bytes ++ rc :: data) chk) s with
    ⟨-, hresolve⟩ | ⟨hfree, -⟩
  · rw [hexec, hresolve, freeSlot_of_lt s hq]
    rfl
  · rw [hpending] at hfree
    cases hfree

/-- The warning byte of a RESPONSE whose checksum is wrong: `warn[0]`, and `warn[1]` by the response code
(R106, 30_encoding.md R74). -/
theorem warning_of_wrong_checksum {content : List Byte} {chk : Byte} (hwrong : chk ≠ checksum content) (rc : Byte) :
    checksumWarning content chk ||| responseWarning rc = if rc = 0 then 0x01 else 0x03 := by
  rw [checksumWarning, if_neg hwrong.symm, responseWarning]
  split <;> rfl

/-- Settles O32: END runs the synchronous response, and RESOLVE does not read the checksum. -/
theorem wrongChecksumStillResolves : Obligations.WrongChecksumStillResolves := by
  intro s h rc data chk hq hin hbuf hcls hpending hwrong
  obtain ⟨-, -, hsync, -⟩ := endClosesPacket s hin
  have hresolve := exec_pktSync_of_pending (s := { s with rxState := .idle, rxBuf := [] }) hq hpending rc data chk
  rw [warning_of_wrong_checksum hwrong] at hresolve
  exact (hsync h rc data chk hbuf hcls).trans hresolve

end Sys2Proof.Machine
end

section
/-! PROOFS of the family 42_correlation.md: SEND (R121 to R124, R217), responses (R125, R126, R132), TICK and the life of
a request (R127, R129, R133), and the number that no request bears (R130). -/

namespace Sys2Proof.Machine

/-! ### SEND -/

/-- The counter after an allocation, as R122 writes it: 254 is followed by 0. -/
theorem nextSeq_eq {v : Byte} (h : v.toNat < 255) : nextSeq v = if v = 254 then 0 else v + 1 := by
  by_cases hlast : v = 254
  · rw [if_pos hlast, hlast]
    rfl
  · have hne : v.toNat ≠ 254 := fun e => hlast (BitVec.eq_of_toNat_eq e)
    apply BitVec.eq_of_toNat_eq
    rw [if_neg hlast, nextSeq_toNat, BitVec.toNat_add, show (1 : Byte).toNat = 1 from rfl,
      Nat.mod_eq_of_lt (by omega), Nat.mod_eq_of_lt (by omega)]

/-- SEND within the bound whose slot is free is accepted (R121). -/
theorem exec_send_of_free (flags did cid : Byte) {p : List Byte} {s : State} (hfits : p.length ≤ s.cfg.maxTxPayload.val)
    (hfree : isPending s s.seqCtr = false) :
    exec (.send flags did cid p) s = .next (acceptSend flags did cid p s) := by
  rcases execSend_cases flags did cid p s with ⟨hlong, -⟩ | ⟨-, hbusy, -⟩ | ⟨-, hbusy, -⟩ | ⟨-, -, haccept⟩
  · exact absurd hfits (Nat.not_le.mpr hlong)
  · simp [hfree] at hbusy
  · simp [hfree] at hbusy
  · exact haccept

/-- Settles O40: the free slot at SEQ_CTR is the one that an accepted SEND writes. -/
theorem sendAccepted : Obligations.SendAccepted := by
  intro s flags did cid p hq hfits hfree
  have hslot : isPending s s.seqCtr = false := by rw [isPending, slotAt_of_lt s hq, hfree]
  rw [exec_send_of_free flags did cid hfits hslot, acceptSend_eq, nextSeq_eq hq, setSlot, dif_pos hq]

/-- Settles O41: of what SEND can do, the busy slot and the policy leave the rejection. -/
theorem busySendRejected : Obligations.BusySendRejected := by
  intro s flags did cid p hfits hbusy hpolicy
  rcases execSend_cases flags did cid p s with ⟨hlong, -⟩ | ⟨-, -, -, hreject⟩ | ⟨-, -, hblock, -⟩ | ⟨-, hfree, -⟩
  · exact absurd hfits (Nat.not_le.mpr hlong)
  · exact hreject
  · simp [hpolicy] at hblock
  · simp [hbusy] at hfree

/-! ### A SEND that holds -/

/-- A SEND that holds lets its turn pass and stays at its port (R124, log 5). -/
theorem step_of_holdsSend {s : State} {p : Port} {ports : List Port} {i : Instr} {rest : List Byte}
    (hsched : s.sched = p :: ports) (hdecode : decode (portBytes s p) = .event i rest)
    (hholds : holdsSend i s = true) : step s = .next (setSched s ports) := by
  simp [step, fetch, hsched, hdecode, hholds]

/-- No instruction writes a port (R33). -/
theorem portBytes_of_exec {i : Instr} {s t : State} (h : exec i s = .next t) (p : Port) :
    portBytes t p = portBytes s p := by
  obtain ⟨-, hhost, hrx, htick, hreset, -⟩ := exec_keeps_outside h
  cases p with
  | host => exact hhost
  | transport => exact hrx
  | tick => exact htick
  | reset => exact hreset

/-- TICK, RESET and RX_BYTE take their step in every state, and do not hold (R217, 40_byte_codec.md R82). -/
theorem exec_next_of_tick_reset_rxByte {i : Instr} (hi : i = .tick ∨ i = .reset ∨ ∃ b, i = .rxByte b) (s : State) :
    holdsSend i s = false ∧ ∀ u, ∃ t, exec i u = .next t := by
  rcases hi with rfl | rfl | ⟨b, rfl⟩
  · exact ⟨rfl, fun _ => ⟨_, rfl⟩⟩
  · exact ⟨rfl, fun _ => ⟨_, rfl⟩⟩
  · exact ⟨rfl, execRxByte_next b⟩

/-- Settles O42: the turn of a held SEND passes, and an input at another port is run and takes from its own port
alone. -/
theorem blockedSendHolds : Obligations.BlockedSendHolds := by
  intro s flags did cid p rest ports hdecode hfits hbusy hpolicy
  refine ⟨fun hsched => ?held, fun port i rest' hport hsched hdecode' hi => ?other⟩
  case held =>
    exact step_of_holdsSend hsched hdecode ((holdsSend_send flags did cid p s).mpr ⟨hfits, hbusy, hpolicy⟩)
  case other =>
    obtain ⟨hholds, hnext⟩ := exec_next_of_tick_reset_rxByte hi s
    obtain ⟨t, hexec⟩ := hnext (setPortBytes (setSched s ports) port rest')
    have hports := portBytes_of_exec hexec
    have hhost : portBytes t .host = portBytes s .host := by
      rw [hports, portBytes_setPortBytes_of_ne _ hport, portBytes_setSched]
    exact ⟨t, (stepRunsDecodedEvent s port ports i rest' hsched hdecode' hholds).trans hexec,
      (hports port).trans (portBytes_setPortBytes_self _ port rest'), hhost⟩

/-! ### Responses -/

/-- Settles O38: RESOLVE by whether the number is pending; the sentinel never is. -/
theorem responseResolvedOrUnmatched : Obligations.ResponseResolvedOrUnmatched := by
  intro s h rc data chk warn0
  have hwarn : checksumWarning (h.bytes ++ rc :: data) chk = warn0 := checksumWarning_eq_warnOf _ _
  refine ⟨fun hq hvalid => ?pending, fun hunmatched => ?free⟩
  case pending =>
    have hpending : isPending s h.seq = true := by rw [isPending, slotAt_of_lt s hq, hvalid]
    rw [exec_pktSync_of_pending hq hpending, hwarn, slotAt_of_lt s hq]
    rfl
  case free =>
    have hfree : isPending s h.seq = false := by
      rcases hunmatched with hseq | ⟨hq, hvalid⟩
      · rw [hseq]
        rfl
      · rw [isPending, slotAt_of_lt s hq, hvalid]
    rcases resolve_cases h.seq rc data warn0 s with ⟨hpending, -⟩ | ⟨-, hresolve⟩
    · simp [hfree] at hpending
    · rw [← hwarn] at hresolve ⊢
      exact congrArg _ hresolve

/-- The record by which a response is delivered (R125). -/
def responseRecord (h : Header) (rc : Byte) (data : List Byte) (chk : Byte) : List Byte :=
  eventRecord (.response h.seq rc (checksumWarning (h.bytes ++ rc :: data) chk ||| responseWarning rc) data)

/-- A response to a pending number frees its slot and is delivered (R125). -/
theorem exec_pktSync_eq_freeSlot {s : State} {h : Header} (hpending : isPending s h.seq = true) (rc : Byte)
    (data : List Byte) (chk : Byte) :
    exec (.pktSync h rc data chk) s = .next (emitRecords (freeSlot s h.seq) [responseRecord h rc data chk]) :=
  congrArg _ (if_pos hpending)

/-- A response completes its request (R133). -/
theorem completes_responseRecord (h : Header) (rc : Byte) (data : List Byte) (chk : Byte) :
    completes h.seq (responseRecord h rc data chk) = true := by
  simp [completes, responseRecord, eventRecord]

/-- Which slots are pending after one is freed (R125). -/
theorem isPending_freeSlot (s : State) (q r : Byte) :
    isPending (freeSlot s q) r = (decide (q ≠ r) && isPending s r) := by
  rw [isPending, slotAt_freeSlot]
  by_cases hqr : q = r <;> simp [hqr, isPending]

/-- Freeing a slot and reporting are independent (R125). -/
theorem freeSlot_emitRecords (s : State) (records : List (List Byte)) (q : Byte) :
    freeSlot (emitRecords s records) q = emitRecords (freeSlot s q) records := by
  by_cases hq : q.toNat < 255
  · rw [freeSlot_of_lt _ hq, freeSlot_of_lt _ hq]
    rfl
  · simp [freeSlot, setSlot, hq]

/-- Slots are freed in either order (R132). -/
theorem freeSlot_comm (s : State) (q r : Byte) : freeSlot (freeSlot s q) r = freeSlot (freeSlot s r) q := by
  have hslots : (freeSlot (freeSlot s q) r).slots = (freeSlot (freeSlot s r) q).slots := by
    refine slots_ext fun k => ?_
    simp only [slotAt_freeSlot]
    split <;> split <;> rfl
  apply State.ext
  case slots => exact hslots
  all_goals simp

/-- Two responses to different pending numbers, one after the other: both slots are freed, and the records stand in the
order of arrival (R132). -/
theorem exec_two_responses {s : State} {h h' : Header} (hne : h.seq ≠ h'.seq) (hpending : isPending s h.seq = true)
    (hpending' : isPending s h'.seq = true) (rc rc' : Byte) (data data' : List Byte) (chk chk' : Byte) :
    ∃ t, exec (.pktSync h rc data chk) s = .next t
      ∧ exec (.pktSync h' rc' data' chk') t = .next (emitRecords (freeSlot (freeSlot s h.seq) h'.seq)
          [responseRecord h rc data chk, responseRecord h' rc' data' chk']) := by
  refine ⟨_, exec_pktSync_eq_freeSlot hpending rc data chk, ?_⟩
  have hstill : isPending (emitRecords (freeSlot s h.seq) [responseRecord h rc data chk]) h'.seq = true := by
    rw [isPending_emitRecords, isPending_freeSlot, hpending']
    simp [hne]
  rw [exec_pktSync_eq_freeSlot hstill, freeSlot_emitRecords]
  simp [emitRecords]

/-- Settles O50: each order frees the two slots, and freeing commutes. -/
theorem responsesResolveInAnyOrder : Obligations.ResponsesResolveInAnyOrder := by
  intro s h₁ h₂ rc₁ rc₂ data₁ data₂ chk₁ chk₂ hne hpending₁ hpending₂
  obtain ⟨t₁, hfirst₁, hsecond₁⟩ := exec_two_responses hne hpending₁ hpending₂ rc₁ rc₂ data₁ data₂ chk₁ chk₂
  obtain ⟨t₂, hfirst₂, hsecond₂⟩ := exec_two_responses hne.symm hpending₂ hpending₁ rc₂ rc₁ data₂ data₁ chk₂ chk₁
  refine ⟨t₁, _, t₂, _, responseRecord h₁ rc₁ data₁ chk₁, responseRecord h₂ rc₂ data₂ chk₂,
    hfirst₁, hsecond₁, hfirst₂, hsecond₂, by simp, by simp, completes_responseRecord .., completes_responseRecord ..,
    ?_, by simp [isPending_freeSlot], by simp [isPending_freeSlot]⟩
  rw [freeSlot_comm]
  simp [emitRecords]

/-! ### TICK -/

/-- The state that TICK leaves (R127). -/
def afterTick (s : State) : State :=
  emitRecords { s with slots := s.slots.map (tickSlot (timerWidth s.cfg)) }
    (timeoutRecords (timerWidth s.cfg) 0 s.slots.toList)

/-- TICK takes its step in every state (R127). -/
theorem exec_tick (s : State) : exec .tick s = .next (afterTick s) := rfl

/-- A slot after TICK (R127). -/
theorem slotAt_afterTick (s : State) (q : Byte) : slotAt (afterTick s) q = tickSlot (timerWidth s.cfg) (slotAt s q) :=
  slotAt_map_tickSlot s _ q

/-- What TICK reports (R127). -/
theorem newRecords_afterTick (s : State) :
    newRecords s (afterTick s) = timeoutRecords (timerWidth s.cfg) 0 s.slots.toList :=
  newRecords_of_append rfl

/-- A free slot is left alone (R127). -/
theorem tickSlot_of_free (tw : Nat) {x : Slot} (h : x.valid = false) : tickSlot tw x = x := by
  simp [tickSlot, h]

/-- A pending slot within R26 has one tick less, and stays pending if that is not its last (R127). -/
theorem tickSlot_of_pending (c : Config) {x : Slot} (hvalid : x.valid = true) (h1 : 1 ≤ x.timer)
    (h2 : x.timer ≤ c.timeoutTicks) : tickSlot (timerWidth c) x = ⟨decide (2 ≤ x.timer), x.timer - 1⟩ := by
  have hstays : (x.timer - 1 != 0) = decide (2 ≤ x.timer) := by
    rw [Bool.eq_iff_iff, bne_iff_ne, decide_eq_true_iff]
    omega
  rw [tickSlot, if_pos hvalid, timerPred_of_le c h1 h2, hstays]

/-- A slot within R26 expires on the TICK that finds it pending with one tick left (R127). -/
theorem slotExpires_eq (c : Config) {x : Slot} (h : x.valid = true → 1 ≤ x.timer ∧ x.timer ≤ c.timeoutTicks) :
    slotExpires (timerWidth c) x = (x.valid && x.timer == 1) := by
  cases hvalid : x.valid with
  | false => simp [slotExpires, hvalid]
  | true =>
      obtain ⟨h1, h2⟩ := h hvalid
      rw [slotExpires, hvalid, timerPred_of_le c h1 h2, Bool.true_and, Bool.true_and, Bool.eq_iff_iff, beq_iff_eq,
        beq_iff_eq]
      omega

/-- The table as a list, each slot beside its number (R24). -/
theorem slots_zipIdx (s : State) :
    s.slots.toList.zipIdx = (List.range 255).map fun n => (slotAt s (BitVec.ofNat 8 n), n) := by
  apply List.ext_getElem
  · simp
  · intro n hn _
    have hlt : n < 255 := by simpa using hn
    simp [slotAt, Nat.mod_eq_of_lt (Nat.lt_succ_of_lt hlt), hlt]

/-- The TIMEOUT records of a TICK, by number (R127). -/
theorem timeoutRecords_eq_range (s : State) (tw : Nat) :
    timeoutRecords tw 0 s.slots.toList =
      ((List.range 255).filter fun n => slotExpires tw (slotAt s (BitVec.ofNat 8 n))).map fun n =>
        [0x04, BitVec.ofNat 8 n] := by
  rw [timeoutRecords_eq, slots_zipIdx, List.filter_map, List.map_map]
  rfl

/-- Settles O44: TICK slot by slot, and the expired slots are those with one tick left. -/
theorem tickCountsDown : Obligations.TickCountsDown := by
  intro s hrange
  have hexpires : ∀ q, slotExpires (timerWidth s.cfg) (slotAt s q) = (isPending s q && (slotAt s q).timer == 1) :=
    fun q => slotExpires_eq s.cfg (hrange q)
  refine ⟨afterTick s, exec_tick s, fun q hq => ?pending, fun q hq => ?free, ?others⟩
  case pending =>
    obtain ⟨h1, h2⟩ := hrange q hq
    rw [slotAt_afterTick, tickSlot_of_pending s.cfg hq h1 h2]
  case free => rw [slotAt_afterTick, tickSlot_of_free _ hq]
  case others =>
    simp only [← hexpires]
    rw [← timeoutRecords_eq_range]
    rfl

/-- A number is reported once by the TICK on which its slot expires, and not by another (R127, R133). -/
theorem count_timeout_afterTick (s : State) (q : Byte) :
    (newRecords s (afterTick s)).count [0x04, q] = if slotExpires (timerWidth s.cfg) (slotAt s q) then 1 else 0 := by
  have hmem : [0x04, q] ∈ timeoutRecords (timerWidth s.cfg) 0 s.slots.toList
      ↔ slotExpires (timerWidth s.cfg) (slotAt s q) = true := by
    rw [mem_timeoutRecords]
    constructor
    · rintro ⟨r, hexpires, hr⟩
      cases hr
      exact hexpires
    · exact fun hexpires => ⟨q, hexpires, rfl⟩
  rw [newRecords_afterTick, (timeoutRecords_nodup s _).count]
  exact if_congr hmem rfl rfl

/-! ### The life of a request -/

/-- TICKs in two runs (R129). -/
theorem ticks_add {j : Nat} {s t : State} (h : ticks j s = .next t) (k : Nat) : ticks (j + k) s = ticks k t := by
  induction j generalizing s with
  | zero =>
      cases h
      rw [Nat.zero_add]
  | succ j ih =>
      rw [ticks_succ, exec_tick] at h
      rw [Nat.add_right_comm, ticks_succ, exec_tick]
      exact ih h

/-- One TICK more (R129). -/
theorem ticks_succ_last {j : Nat} {s t : State} (h : ticks j s = .next t) : ticks (j + 1) s = .next (afterTick t) :=
  (ticks_add h 1).trans (by rw [ticks_succ, exec_tick]; rfl)

/-- TICK only adds to EV_LOG (R30). -/
theorem evLog_prefix_afterTick (s : State) : s.evLog <+: (afterTick s).evLog :=
  (exec_extends_logs (exec_tick s)).2

/-- The state `t`, reached from `s` by TICKs, is good and the request on number `q` waits in it with `k` ticks left and no
TIMEOUT reported (R129). -/
structure StillWaits (s t : State) (q : Byte) (k : Nat) : Prop where
  good : t.Inv
  slot : slotAt t q = ⟨true, k⟩
  extends_log : s.evLog <+: t.evLog
  unreported : (newRecords s t).count [0x04, q] = 0

/-- A TICK on a waiting request reports its TIMEOUT where it was on its last tick, and else nothing of it (R127). -/
theorem StillWaits.count_afterTick {s t : State} {q : Byte} {k : Nat} (h : StillWaits s t q k) :
    (newRecords s (afterTick t)).count [0x04, q] = if k = 1 then 1 else 0 := by
  have hexpires : slotExpires (timerWidth t.cfg) (slotAt t q) = (k == 1) := by
    rw [slotExpires_eq t.cfg (h.good.timer_range q), h.slot, Bool.true_and]
  rw [newRecords_trans h.extends_log (evLog_prefix_afterTick t), List.count_append, h.unreported,
    count_timeout_afterTick, hexpires]
  simp

/-- The slot of a waiting request after a TICK (R127). -/
theorem StillWaits.slot_afterTick {s t : State} {q : Byte} {k : Nat} (h : StillWaits s t q k) :
    slotAt (afterTick t) q = ⟨decide (2 ≤ k), k - 1⟩ := by
  have hpending : isPending t q = true := by rw [isPending, h.slot]
  obtain ⟨h1, h2⟩ := h.good.timer_range q hpending
  rw [slotAt_afterTick, tickSlot_of_pending t.cfg hpending h1 h2, h.slot]

/-- A request that is not on its last tick waits on after a TICK (R129). -/
theorem StillWaits.afterTick {s t : State} {q : Byte} {k : Nat} (h : StillWaits s t q k) (hk : 2 ≤ k) :
    StillWaits s (afterTick t) q (k - 1) where
  good := exec_preserves_inv h.good (exec_tick t)
  slot := by rw [h.slot_afterTick, decide_eq_true hk]
  extends_log := h.extends_log.trans (evLog_prefix_afterTick t)
  unreported := by rw [h.count_afterTick, if_neg (by omega)]

/-- From a good state a request waits through fewer TICKs than it has ticks left (R129). -/
theorem ticks_stillWaits {s : State} {q : Byte} (hs : s.Inv) (hpending : isPending s q = true) {j : Nat}
    (hj : j < (slotAt s q).timer) : ∃ t, ticks j s = .next t ∧ StillWaits s t q ((slotAt s q).timer - j) := by
  induction j with
  | zero =>
      have hvalid : (slotAt s q).valid = true := hpending
      exact ⟨s, rfl, hs, by rw [← hvalid, Nat.sub_zero], List.prefix_rfl, by simp [newRecords]⟩
  | succ j ih =>
      obtain ⟨t, hticks, hwaits⟩ := ih (by omega)
      exact ⟨_, ticks_succ_last hticks, hwaits.afterTick (by omega)⟩

/-- Settles O45: the request waits up to its last tick, and the TICK after it expires it. -/
theorem requestExpiresOnItsLastTick : Obligations.RequestExpiresOnItsLastTick := by
  intro s q hs hpending
  refine ⟨fun j hj => ?before, ?last⟩
  case before =>
    obtain ⟨t, hticks, hwaits⟩ := ticks_stillWaits hs hpending hj
    exact ⟨t, hticks, hwaits.slot, List.count_eq_zero.mp hwaits.unreported⟩
  case last =>
    obtain ⟨h1, -⟩ := hs.timer_range q hpending
    obtain ⟨j, hj⟩ : ∃ j, (slotAt s q).timer = j + 1 := ⟨_, (Nat.sub_add_cancel h1).symm⟩
    obtain ⟨t, hticks, hwaits⟩ := ticks_stillWaits hs hpending (j := j) (by omega)
    rw [hj, Nat.add_sub_cancel_left] at hwaits
    refine ⟨afterTick t, hj ▸ ticks_succ_last hticks, ?_, hwaits.count_afterTick⟩
    rw [isPending, hwaits.slot_afterTick]
    rfl

/-! ### Completions -/

/-- `q` is freed between `s` and `t` (R133). -/
def freed (s t : State) (q : Byte) : Bool := isPending s q && !isPending t q

/-- The number of completions reported for `q` is 1 where `q` is freed, and else 0 (R133). -/
def CompletedOnceIfFreed (s t : State) (q : Byte) : Prop :=
  (newRecords s t).countP (completes q) = (freed s t q).toNat

/-- A slot that is not freed, with no record that completes it. -/
theorem completedOnceIfFreed_of_kept {s t : State} {q : Byte} {records : List (List Byte)}
    (hrecords : t.evLog = s.evLog ++ records) (hnone : ∀ r ∈ records, completes q r = false)
    (hkept : isPending s q = true → isPending t q = true) : CompletedOnceIfFreed s t q := by
  have hfreed : freed s t q = false := by
    cases hq : isPending s q with
    | false => simp [freed, hq]
    | true => simp [freed, hkept hq]
  have hcount : records.countP (completes q) = 0 := List.countP_eq_zero.mpr (by simpa using hnone)
  rw [CompletedOnceIfFreed, newRecords_of_append hrecords, hcount, hfreed]
  rfl

/-- The RESPONSE record of number `r` completes `r` alone (30_encoding.md R73). -/
theorem completes_of_responseRecord {r : Byte} {record : List Byte} (h : ResponseRecord r record) (q : Byte) :
    completes q record = decide (r = q) := by
  have htake : record.take 2 = [0x03, r] := h
  by_cases hrq : r = q <;> simp [completes, htake, hrq]

/-- The TIMEOUT record of number `r` completes `r` alone (30_encoding.md R73). -/
theorem completes_timeout (q r : Byte) : completes q [0x04, r] = ([0x04, r] == [0x04, q]) := by
  simp [completes]

/-- The receive side frees a slot with its RESPONSE, and else reports no completion (R125, R126). -/
theorem ReceiveEffect.completedOnceIfFreed {s t : State} (h : ReceiveEffect s t) (q : Byte) :
    CompletedOnceIfFreed s t q := by
  obtain ⟨_, _, -, ⟨records, hrecords, rfl⟩ | ⟨r, record, hpending, hresponse, ht⟩⟩ := h
  · refine completedOnceIfFreed_of_kept rfl (fun record hmem => ?_) id
    rcases hrecords with rfl | ⟨_, rfl, hplain⟩
    · cases hmem
    · rw [List.mem_singleton.mp hmem]
      exact completes_of_plain hplain q
  · have hslots : t.slots = (freeSlot s r).slots := by rw [ht]
    have hfreed : freed s t q = decide (r = q) := by
      rw [freed, isPending_congr hslots, isPending_freeSlot]
      by_cases hrq : r = q
      · simp [← hrq, hpending]
      · simp [hrq]
    rw [CompletedOnceIfFreed, newRecords_of_append (records := [record]) (by rw [ht]), List.countP_singleton,
      completes_of_responseRecord hresponse, hfreed]
    by_cases hrq : r = q <;> simp [hrq]

/-- TICK frees a slot with its TIMEOUT (R127). -/
theorem afterTick_completedOnceIfFreed (s : State) (q : Byte) : CompletedOnceIfFreed s (afterTick s) q := by
  have hcompletes : (newRecords s (afterTick s)).countP (completes q)
      = (newRecords s (afterTick s)).count [0x04, q] := by
    refine List.countP_congr fun record hmem => ?_
    rw [newRecords_afterTick, mem_timeoutRecords] at hmem
    obtain ⟨r, -, rfl⟩ := hmem
    rw [completes_timeout]
  have hfreed : freed s (afterTick s) q = slotExpires (timerWidth s.cfg) (slotAt s q) := by
    rw [freed, isPending, isPending, slotAt_afterTick, tickSlot_valid]
    cases hvalid : (slotAt s q).valid <;> simp [slotExpires, hvalid]
  rw [CompletedOnceIfFreed, hcompletes, count_timeout_afterTick, hfreed]
  cases slotExpires (timerWidth s.cfg) (slotAt s q) <;> rfl

/-- What is pending stays pending over an accepted SEND (R122). -/
theorem isPending_acceptSend (flags did cid : Byte) (p : List Byte) {s : State} (hfree : isPending s s.seqCtr = false)
    {q : Byte} (hq : isPending s q = true) : isPending (acceptSend flags did cid p s) q = true := by
  have hne : s.seqCtr ≠ q := by
    rintro rfl
    simp [hfree] at hq
  rw [isPending, slotAt_acceptSend_of_ne flags did cid p hne]
  exact hq

/-- Every instruction but RESET frees a slot with one completion, and reports no other (R49, R133). -/
theorem exec_completedOnceIfFreed {i : Instr} {s t : State} (h : exec i s = .next t) (hi : i ≠ .reset) (q : Byte) :
    CompletedOnceIfFreed s t q := by
  have hsilent : s.evLog = s.evLog ++ [] := (List.append_nil _).symm
  rcases exec_cases h with ⟨-, heff⟩ | ⟨m, -, rfl⟩ | ⟨m, -, rfl⟩ | ⟨hreset, -⟩ | ⟨-, rfl⟩
    | ⟨flags, did, cid, p, -, ⟨-, rfl⟩ | ⟨-, -, rfl⟩ | ⟨-, hfree, rfl⟩⟩
  · exact heff.completedOnceIfFreed q
  · exact completedOnceIfFreed_of_kept hsilent (by simp) id
  · exact completedOnceIfFreed_of_kept hsilent (by simp) id
  · exact absurd hreset hi
  · exact afterTick_completedOnceIfFreed s q
  · exact completedOnceIfFreed_of_kept hsilent (by simp) id
  · exact completedOnceIfFreed_of_kept (records := [[0x02, 0x01]]) rfl (by simp [completes]) id
  · exact completedOnceIfFreed_of_kept (records := [[0x01, s.seqCtr]]) (by simp [acceptSend_eq]) (by simp [completes])
      (isPending_acceptSend flags did cid p hfree)

/-- RESET reports nothing (R49). -/
theorem newRecords_of_exec_reset {s t : State} (h : exec .reset s = .next t) : newRecords s t = [] := by
  cases h
  exact newRecords_of_append (List.append_nil _).symm

/-- Settles O46: the count of completions is that of the slot's being freed, in both directions. -/
theorem completionExactlyWhenFreed : Obligations.CompletionExactlyWhenFreed := by
  intro i s t q h
  refine ⟨fun hpending hfree hi => ?freed, ?reset, fun hcompletion => ?completed⟩
  case freed =>
    rw [exec_completedOnceIfFreed h hi q, freed, hpending, hfree]
    rfl
  case reset =>
    rintro rfl
    exact newRecords_of_exec_reset h
  case completed =>
    have hi : i ≠ .reset := by
      rintro rfl
      simp [newRecords_of_exec_reset h] at hcompletion
    have hpos := List.countP_pos_iff.mpr hcompletion
    rw [exec_completedOnceIfFreed h hi q] at hpos
    have hfreed : freed s t q = true := by
      rw [← Bool.toNat_eq_one]
      have := Bool.toNat_le (freed s t q)
      omega
    simpa [freed] using hfreed

/-! ### The sentinel -/

/-- A reported SEND_ACCEPTED bears the number that SEQ_CTR held (R121). -/
theorem eq_seqCtr_of_sendAccepted {i : Instr} {s t : State} (h : exec i s = .next t) {q : Byte}
    (hmem : [0x01, q] ∈ newRecords s t) : q = s.seqCtr := by
  rcases exec_cases h with ⟨-, _, _, -, ⟨records, hrecords, rfl⟩ | ⟨r, record, -, hresponse, rfl⟩⟩ | ⟨m, -, rfl⟩
    | ⟨m, -, rfl⟩ | ⟨-, rfl⟩ | ⟨-, rfl⟩ | ⟨flags, did, cid, p, -, ⟨-, rfl⟩ | ⟨-, -, rfl⟩ | ⟨-, -, rfl⟩⟩
  · rw [newRecords_of_append (records := records) rfl] at hmem
    rcases hrecords with rfl | ⟨record, rfl, hhead, -⟩
    · cases hmem
    · rw [← List.mem_singleton.mp hmem] at hhead
      exact absurd rfl hhead
  · rw [newRecords_of_append (records := [record]) rfl, List.mem_singleton] at hmem
    simp [ResponseRecord, ← hmem] at hresponse
  · simp [newRecords] at hmem
  · simp [newRecords] at hmem
  · simp [newRecords] at hmem
  · rw [newRecords_of_append rfl, mem_timeoutRecords] at hmem
    obtain ⟨r, -, hr⟩ := hmem
    simp at hr
  · simp [newRecords] at hmem
  · simp [newRecords] at hmem
  · rw [newRecords_of_append (records := [[0x01, s.seqCtr]]) (by simp [acceptSend_eq])] at hmem
    simpa using hmem

/-- A frame that an instruction appends to TX_LOG bears the number that SEQ_CTR held (R29, R121). -/
theorem eq_seqCtr_of_frame {i : Instr} {s t : State} (h : exec i s = .next t) {flags did cid q : Byte} {p : List Byte}
    (hframe : t.txLog = s.txLog ++ frame flags did cid q p) : q = s.seqCtr := by
  rcases exec_txLog h with hkept | ⟨_, _, _, _, -, hsent⟩
  · have hempty : frame flags did cid q p = [] := by
      rw [hkept] at hframe
      simpa using hframe
    simp [frame] at hempty
  · obtain ⟨-, -, -, hseq, -⟩ := frame_injective (List.append_cancel_left (hframe.symm.trans hsent))
    exact hseq

/-- SEQ_CTR of a good state is not the sentinel (R23). -/
theorem State.Inv.seqCtr_ne_sentinel {s : State} (hs : s.Inv) : (0xFF : Byte) ≠ s.seqCtr := by
  intro he
  have hrange := hs.seq_range
  rw [← he] at hrange
  exact absurd hrange (by decide)

/-- Settles O49: a reported number and a transmitted one are the counter's, which is within its range. -/
theorem sentinelNeverAllocated : Obligations.SentinelNeverAllocated := by
  intro s t hs h
  obtain ⟨port, ports, -, rfl | ⟨i, rest, -, -, hexec⟩⟩ := step_cases h
  · refine ⟨by simp [newRecords], fun flags did cid p hframe => ?_⟩
    simp [frame] at hframe
  · have hrecords : newRecords (setPortBytes (setSched s ports) port rest) t = newRecords s t := by
      simp [newRecords]
    have hctr : (setPortBytes (setSched s ports) port rest).seqCtr = s.seqCtr := by simp
    refine ⟨fun hmem => ?_, fun flags did cid p hframe => ?_⟩
    · exact hs.seqCtr_ne_sentinel ((eq_seqCtr_of_sendAccepted hexec (hrecords ▸ hmem)).trans hctr)
    · exact hs.seqCtr_ne_sentinel ((eq_seqCtr_of_frame hexec (by simpa using hframe)).trans hctr)

end Sys2Proof.Machine
end

section
/-! PROOFS of the family 43_dispatcher.md: the classifier (R141), the collision record (R143, R144, with 30_encoding.md
R70, R73), the sleep packets (R145, R146), and the pending table under the async classes (R149). -/

namespace Sys2Proof.Machine

/-! ### Async packets and the pending table -/

/-- A packet that is no SYNC gives one event, and no other field is written (R140, R149). -/
theorem exec_async_packet {p : Packet} (hasync : packetClass p ≠ .sync) (s : State) :
    ∃ record, exec p.toInstr s = .next (emitRecords s [record]) := by
  cases p with
  | telemetry h data chk => exact ⟨_, rfl⟩
  | collision h data chk =>
      by_cases hshort : data.length < collisionMinLength
      · exact ⟨_, if_pos hshort⟩
      · exact ⟨_, if_neg hshort⟩
  | sleepWarning h data chk => exact ⟨_, rfl⟩
  | sleeping h data chk => exact ⟨_, rfl⟩
  | sync h rc data chk => exact absurd rfl hasync

/-- A class other than SYNC has a slicing for every body, with no room needed for a responseCode
(41_framer.md R105, R108). -/
theorem slicePacket_of_ne_sync {cls : PacketClass} (hasync : cls ≠ .sync) (h : Header) (body : List Byte) (chk : Byte) :
    ∃ p, slicePacket cls h body chk = some p ∧ packetClass p = cls := by
  cases cls with
  | telemetry => exact ⟨_, rfl, rfl⟩
  | collision => exact ⟨_, rfl, rfl⟩
  | sleepWarning => exact ⟨_, rfl, rfl⟩
  | sleeping => exact ⟨_, rfl, rfl⟩
  | sync => exact absurd rfl hasync

/-- Settles O39: END runs the sliced packet, which is no SYNC, so it does no more than report an event. -/
theorem asyncPacketsLeavePendingTable : Obligations.AsyncPacketsLeavePendingTable := by
  intro s h body chk hin hbuf hasync
  obtain ⟨p, hslice, hcls⟩ := slicePacket_of_ne_sync hasync h body chk
  have hdecode : decodePacket s.cfg s.rxBuf = some p := (decodePacket_of_classify hbuf rfl).trans hslice
  obtain ⟨record, hexec⟩ := exec_async_packet (hcls ▸ hasync) { s with rxState := .idle, rxBuf := [] }
  have hend : exec (.rxByte 0xD8) s = .next (emitRecords { s with rxState := .idle, rxBuf := [] } [record]) :=
    (exec_rxByte_end hin).trans ((exec_rxInEnd_of_packet hin hdecode).trans hexec)
  exact ⟨_, hend, rfl, rfl⟩

/-! ### The classifier -/

/-- A header's pair is an identifier where its two bytes are (30_encoding.md R68). -/
theorem packetId_mk_eq_iff (did cid : Byte) (p : PacketId) :
    (⟨did, cid⟩ : PacketId) = p ↔ did = p.did ∧ cid = p.cid := by
  cases p
  rw [PacketId.mk.injEq]

/-- The lines of CLASSIFY, each on the bytes of the header (R141). -/
theorem classify_eq_bytes (c : Config) (did cid seq : Byte) :
    classify c did cid seq =
      if did = c.telemId.did ∧ cid = c.telemId.cid ∧ seq = 0xFF then .telemetry
      else if did = c.collisionId.did ∧ cid = c.collisionId.cid then .collision
      else if did = c.sleepWarnId.did ∧ cid = c.sleepWarnId.cid ∧ seq = 0xFF then .sleepWarning
      else if did = c.sleepingId.did ∧ cid = c.sleepingId.cid ∧ seq = 0xFF then .sleeping
      else .sync := by
  simp only [classify, packetId_mk_eq_iff, and_assoc]

/-- Settles O33: each clause takes the branch behind the lines that it says do not hold. -/
theorem classifyByPriority : Obligations.ClassifyByPriority := by
  intro c did cid seq tel col slw slp
  have hclass := classify_eq_bytes c did cid seq
  refine ⟨fun htel => ?_, fun htel hcol => ?_, fun htel hcol hslw => ?_, fun htel hcol hslw hslp => ?_,
    fun htel hcol hslw hslp => ?_⟩
  · rw [hclass, if_pos htel]
  · rw [hclass, if_neg htel, if_pos hcol]
  · rw [hclass, if_neg htel, if_neg hcol, if_pos hslw]
  · rw [hclass, if_neg htel, if_neg hcol, if_neg hslw, if_pos hslp]
  · rw [hclass, if_neg htel, if_neg hcol, if_neg hslw, if_neg hslp]

/-! ### Collision records -/

/-- A 16-bit value is reported by the two bytes that it was read from (20_memory.md R42). -/
theorem halfBytes_append (a b : Byte) : halfBytes (a ++ b) = [a, b] := by
  rw [halfBytes, extractLsb'_append_high, extractLsb'_append_low]

/-- Reading a collision record and reporting it gives its eleven bytes back, and the others with their number
(30_encoding.md R70, R73). -/
theorem eventRecord_readCollision (warn0 x1 x0 y1 y0 z1 z0 axis m1 m0 n1 n0 : Byte) (extra : List Byte) :
    eventRecord (.collision warn0 (readCollision ([x1, x0, y1, y0, z1, z0, axis, m1, m0, n1, n0] ++ extra))) =
      [0x06, warn0, x1, x0, y1, y0, z1, z0, axis, m1, m0, n1, n0] ++ lengthBytes extra.length ++ extra := by
  calc
    _ = [0x06, warn0] ++ halfBytes (x1 ++ x0) ++ halfBytes (y1 ++ y0) ++ halfBytes (z1 ++ z0) ++ [axis]
          ++ halfBytes (m1 ++ m0) ++ halfBytes (n1 ++ n0) ++ lengthBytes extra.length ++ extra := rfl
    _ = _ := by simp only [halfBytes_append, List.cons_append, List.nil_append]

/-- A COLLISION packet with a record to decode (R143). -/
theorem exec_pktCollision_of_le {data : List Byte} (hlength : 11 ≤ data.length) (h : Header) (chk : Byte) (s : State) :
    exec (.pktCollision h data chk) s =
      .next (emitRecords s [eventRecord (.collision (warnOf (h.bytes ++ data) chk) (readCollision data))]) := by
  rw [← checksumWarning_eq_warnOf]
  exact if_neg (Nat.not_lt.mpr hlength)

/-- A COLLISION packet with none (R144). -/
theorem exec_pktCollision_of_lt {data : List Byte} (hlength : data.length < 11) (h : Header) (chk : Byte) (s : State) :
    exec (.pktCollision h data chk) s = .next (emitRecords s [eventRecord (.malformed .collisionShort)]) :=
  if_pos hlength

/-- Settles O36: eleven bytes are enough for a record, which is reported byte for byte; fewer are not. -/
theorem collisionDecoded : Obligations.CollisionDecoded := by
  refine ⟨fun s h x1 x0 y1 y0 z1 z0 axis m1 m0 n1 n0 extra chk => ?_,
    fun s h data chk hlength => exec_pktCollision_of_lt hlength h chk s⟩
  intro data
  have hlength : 11 ≤ data.length := by simp [data]
  rw [exec_pktCollision_of_le hlength, eventRecord_readCollision]
  rfl

/-! ### Sleep packets -/

/-- A SLEEP_WARNING packet, whatever its data (R145). -/
theorem exec_pktSleepWarning (h : Header) (data : List Byte) (chk : Byte) (s : State) :
    exec (.pktSleepWarning h data chk) s =
      .next (emitRecords s [eventRecord (.sleepWarning (warnOf (h.bytes ++ data) chk))]) := by
  rw [← checksumWarning_eq_warnOf]
  rfl

/-- A SLEEPING packet, whatever its data (R146). -/
theorem exec_pktSleeping (h : Header) (data : List Byte) (chk : Byte) (s : State) :
    exec (.pktSleeping h data chk) s =
      .next (emitRecords s [eventRecord (.sleeping (warnOf (h.bytes ++ data) chk))]) := by
  rw [← checksumWarning_eq_warnOf]
  rfl

/-- Settles O37: each of the two classes emits its record and writes EV_LOG alone. -/
theorem sleepEventsReported : Obligations.SleepEventsReported :=
  fun s h data chk => ⟨exec_pktSleepWarning h data chk s, exec_pktSleeping h data chk s⟩

end Sys2Proof.Machine
end

section
/-! PROOFS of the family 44_telemetry.md: the Active Field List (R161), the masks (R162, R163), the expected length of a
sample (R165, R167), and the field tables, which no instruction reads (R168, R170). -/

namespace Sys2Proof.Machine

/-! ### The Active Field List -/

/-- The set bits of a mask (R161). -/
theorem mem_activeBits {m : Word} {b : Nat} : b ∈ activeBits m ↔ b < 32 ∧ m.getLsbD b = true := by
  rw [activeBits, List.mem_filter, List.mem_reverse, List.mem_range]

/-- The highest bit comes first (R161): the 32 positions ascend, so their reverse descends, and dropping the clear ones
keeps the order. -/
theorem activeBits_descending (m : Word) : (activeBits m).Pairwise fun a b => b < a :=
  (List.pairwise_reverse.mpr List.pairwise_lt_range).filter _

/-- The order in which the positions are visited does not change how many of them are set (R161, R165). -/
theorem length_activeBits (m : Word) : (activeBits m).length = popcount m := by
  rw [activeBits, popcount, ← List.countP_eq_length_filter, List.countP_reverse]

/-- A mask selects at most its 32 bits (R27, R165). -/
theorem popcount_le (m : Word) : popcount m ≤ 32 :=
  List.countP_le_length.trans_eq List.length_range

/-- Settles O52: the list is the reversed range of bit positions, with the clear ones dropped. -/
theorem activeFieldListOfMask : Obligations.ActiveFieldListOfMask :=
  fun m => ⟨fun _ => mem_activeBits, activeBits_descending m, length_activeBits m,
    (length_activeBits m).trans_le (popcount_le m)⟩

/-! ### The masks -/

/-- Settles O53: each SET_MASK replaces its own mask and leaves the other as it was. -/
theorem maskWritesWhole : Obligations.MaskWritesWhole :=
  fun s m => ⟨exec_setMask1_eq_withMasks m s, exec_setMask2_eq_withMasks m s⟩

/-! ### The expected length of a sample -/

/-- Four bytes for each selected field (R165). -/
theorem expectedLength_eq (m1 m2 : Word) : expectedLength m1 m2 = 4 * (popcount m1 + popcount m2) := by
  rw [expectedLength, length_activeBits, length_activeBits, fieldWidthBytes]

/-- A TELEMETRY packet reports one event, decoded against the masks in force (R142, R164). -/
theorem exec_pktTelemetry (h : Header) (data : List Byte) (chk : Byte) (s : State) :
    exec (.pktTelemetry h data chk) s =
      .next (emitRecords s [eventRecord (telemetryEvent s.mask1 s.mask2 data (warnOf (h.bytes ++ data) chk))]) := by
  rw [← checksumWarning_eq_warnOf]
  rfl

/-- A sample of another length is reported with both lengths, and no field of it is read (R167). -/
theorem telemetryEvent_of_length_ne {m1 m2 : Word} {data : List Byte} (h : data.length ≠ expectedLength m1 m2)
    (warn0 : Byte) :
    telemetryEvent m1 m2 data warn0 = .telemetryError warn0 (expectedLength m1 m2) data.length :=
  if_neg h

/-- Settles O35: two masks select at most 64 fields; the length of the data alone tells the error from the sample. -/
theorem telemetryLengthMismatchReported : Obligations.TelemetryLengthMismatchReported := by
  intro s h data chk expected
  have hexpected : expectedLength s.mask1 s.mask2 = expected := expectedLength_eq s.mask1 s.mask2
  refine ⟨?bound, fun hne => ?mismatch, fun heq => ?sample⟩
  case bound =>
    have hfields : popcount s.mask1 + popcount s.mask2 ≤ 64 := Nat.add_le_add (popcount_le _) (popcount_le _)
    exact Nat.mul_le_mul_left 4 hfields
  case mismatch =>
    rw [exec_pktTelemetry, telemetryEvent_of_length_ne (hexpected ▸ hne), hexpected]
    rfl
  case sample =>
    have hrecord := telemetryEvent_of_length (heq.trans hexpected.symm) (warnOf (h.bytes ++ data) chk)
    exact ⟨_, _, exec_pktTelemetry h data chk s, congrArg (fun record => s.evLog ++ [record]) hrecord⟩

/-! ### The field tables -/

/-- `s` under a configuration with other field names and reserved flags (R72, R160). -/
def withFieldTables (f₁ f₂ : Vector FieldDescriptor 32) (s : State) : State :=
  { s with cfg := { s.cfg with fields1 := f₁, fields2 := f₂ } }

/-- An outcome with its next state, if it has one, taken along `g`: a fault or a refusal stays as it is. -/
def mapNext (g : State → State) : Result → Result
  | .next t => .next (g t)
  | .fault r => .fault r
  | .refused r => .refused r

/-- A conditional goes through `f` where both its branches do. -/
theorem ite_eq_apply_ite {α β : Type} (f : α → β) {P : Prop} [Decidable P] {a b : α} {a' b' : β} (ha : a' = f a)
    (hb : b' = f b) : (if P then a' else b') = f (if P then a else b) := by
  rw [ha, hb, apply_ite f]

section FieldTables

variable (f₁ f₂ : Vector FieldDescriptor 32) (s : State)

/-- A slot is written alike under all field tables. -/
theorem setSlot_withFieldTables (q : Byte) (x : Slot) :
    setSlot (withFieldTables f₁ f₂ s) q x = withFieldTables f₁ f₂ (setSlot s q x) := by
  by_cases hq : q.toNat < 255
  · simp [setSlot, hq, withFieldTables]
  · simp [setSlot, hq]

/-- An allocation reads TIMEOUT_TICKS alone of the configuration (R121, R122). -/
theorem acceptSend_withFieldTables (flags did cid : Byte) (p : List Byte) :
    acceptSend flags did cid p (withFieldTables f₁ f₂ s) = withFieldTables f₁ f₂ (acceptSend flags did cid p s) := by
  have hslot := setSlot_withFieldTables f₁ f₂ s s.seqCtr ⟨true, s.cfg.timeoutTicks⟩
  exact congrArg (fun u => emitRecords (transmit { u with seqCtr := nextSeq s.seqCtr }
    (frame flags did cid s.seqCtr p)) [eventRecord (.sendAccepted s.seqCtr)]) hslot

/-- Beside it SEND reads MAX_TX_PAYLOAD and ALLOC_POLICY (R66, R123, R124). -/
theorem execSend_withFieldTables (flags did cid : Byte) (p : List Byte) :
    execSend flags did cid p (withFieldTables f₁ f₂ s) =
      mapNext (withFieldTables f₁ f₂) (execSend flags did cid p s) := by
  have hpolicy : (withFieldTables f₁ f₂ s).cfg.allocPolicy = s.cfg.allocPolicy := rfl
  refine ite_eq_apply_ite (mapNext _) rfl (ite_eq_apply_ite (mapNext _) ?busy ?free)
  case busy =>
    rw [hpolicy]
    cases s.cfg.allocPolicy with
    | failFast => rfl
    | block => rfl
  case free => exact congrArg _ (acceptSend_withFieldTables f₁ f₂ s flags did cid p)

/-- RESOLVE reads nothing of the configuration (R125, R126). -/
theorem resolve_withFieldTables (q rc : Byte) (data : List Byte) (warn0 : Byte) :
    resolve q rc data warn0 (withFieldTables f₁ f₂ s) = withFieldTables f₁ f₂ (resolve q rc data warn0 s) := by
  have hfree : freeSlot (withFieldTables f₁ f₂ s) q = withFieldTables f₁ f₂ (freeSlot s q) :=
    setSlot_withFieldTables f₁ f₂ s q _
  exact ite_eq_apply_ite (withFieldTables f₁ f₂) (congrArg (emitRecords · _) hfree) rfl

/-- Storing a byte reads RX_BUF_MAX alone of the configuration (R45). -/
theorem storeByte_withFieldTables (b : Byte) :
    storeByte b (withFieldTables f₁ f₂ s) = withFieldTables f₁ f₂ (storeByte b s) :=
  ite_eq_apply_ite (withFieldTables f₁ f₂) rfl rfl

/-- No packet class reads the configuration, and TELEM_DECODE takes its fields from the masks and the data alone
(R166, R170). -/
theorem dispatchPacket_withFieldTables (p : Packet) :
    dispatchPacket p (withFieldTables f₁ f₂ s) = mapNext (withFieldTables f₁ f₂) (dispatchPacket p s) := by
  cases p with
  | telemetry h data chk => rfl
  | collision h data chk => exact ite_eq_apply_ite (mapNext _) rfl rfl
  | sleepWarning h data chk => rfl
  | sleeping h data chk => rfl
  | sync h rc data chk => exact congrArg _ (resolve_withFieldTables f₁ f₂ s ..)

/-- CLOSE reads the identifiers alone of the configuration (R105, R141). -/
theorem closePacket_withFieldTables (l : List Byte) :
    closePacket l (withFieldTables f₁ f₂ s) = mapNext (withFieldTables f₁ f₂) (closePacket l s) := by
  have hdecode : decodePacket (withFieldTables f₁ f₂ s).cfg l = decodePacket s.cfg l := rfl
  rw [closePacket, closePacket, hdecode]
  cases decodePacket s.cfg l with
  | none => rfl
  | some p => exact dispatchPacket_withFieldTables f₁ f₂ s p

/-- The rows of the received-byte table: their conditions are on RX_STATE, RX_BUF and the byte (R83 to R89). -/
theorem execRow_withFieldTables (row : RxRow) :
    exec row.toInstr (withFieldTables f₁ f₂ s) = mapNext (withFieldTables f₁ f₂) (exec row.toInstr s) := by
  cases row with
  | idleStart => exact ite_eq_apply_ite (mapNext _) rfl rfl
  | idleOther b => rfl
  | inStart =>
      have hreported := ite_eq_apply_ite (withFieldTables f₁ f₂) (P := 0 < s.rxBuf.length)
        (a := emitRecords s [eventRecord (.malformed .truncated)]) (b := s) rfl rfl
      exact ite_eq_apply_ite (mapNext _)
        (congrArg (fun u => Host.Outcome.next (setRxState (rxClear u) .inPacket)) hreported) rfl
  | inEnd =>
      exact ite_eq_apply_ite (mapNext _)
        (closePacket_withFieldTables f₁ f₂ (setRxState (rxClear s) .idle) s.rxBuf) rfl
  | inEscape => exact ite_eq_apply_ite (mapNext _) rfl rfl
  | inData b => exact ite_eq_apply_ite (mapNext _) (congrArg _ (storeByte_withFieldTables f₁ f₂ s b)) rfl
  | escAny b => exact ite_eq_apply_ite (mapNext _) (congrArg _ (storeByte_withFieldTables f₁ f₂ s _)) rfl

/-- Other field tables go through every instruction and change nothing else in its outcome (R168, R170). -/
theorem exec_withFieldTables (i : Instr) :
    exec i (withFieldTables f₁ f₂ s) = mapNext (withFieldTables f₁ f₂) (exec i s) := by
  cases i with
  | send flags did cid p => exact execSend_withFieldTables f₁ f₂ s flags did cid p
  | setMask1 _ => rfl
  | setMask2 _ => rfl
  | rxByte b =>
      have hrow := execRow_withFieldTables f₁ f₂ s (rxDecode s.rxState b)
      exact (execRxByte_eq b _).trans (hrow.trans (congrArg _ (execRxByte_eq b s)).symm)
  | tick => rfl
  | reset => rfl
  | reservedOp0 _ => rfl
  | reservedOp7 _ => rfl
  | reservedOp8F _ => rfl
  | rxIdleStart => exact execRow_withFieldTables f₁ f₂ s .idleStart
  | rxIdleOther b => exact execRow_withFieldTables f₁ f₂ s (.idleOther b)
  | rxInStart => exact execRow_withFieldTables f₁ f₂ s .inStart
  | rxInEnd => exact execRow_withFieldTables f₁ f₂ s .inEnd
  | rxInEscape => exact execRow_withFieldTables f₁ f₂ s .inEscape
  | rxInData b => exact execRow_withFieldTables f₁ f₂ s (.inData b)
  | rxEscAny b => exact execRow_withFieldTables f₁ f₂ s (.escAny b)
  | pktTelemetry h data chk => exact dispatchPacket_withFieldTables f₁ f₂ s (.telemetry h data chk)
  | pktCollision h data chk => exact dispatchPacket_withFieldTables f₁ f₂ s (.collision h data chk)
  | pktSleepWarning h data chk => exact dispatchPacket_withFieldTables f₁ f₂ s (.sleepWarning h data chk)
  | pktSleeping h data chk => exact dispatchPacket_withFieldTables f₁ f₂ s (.sleeping h data chk)
  | pktSync h rc data chk => exact dispatchPacket_withFieldTables f₁ f₂ s (.sync h rc data chk)

end FieldTables

/-- Settles O55: the outcome under other tables is the outcome with its next state's tables replaced. -/
theorem fieldTableNeverRead : Obligations.FieldTableNeverRead := by
  intro i s f₁ f₂ retable
  have hexec : exec i (retable s) = mapNext retable (exec i s) := exec_withFieldTables f₁ f₂ s i
  cases houtcome : exec i s with
  | next t => exact hexec.trans (congrArg _ houtcome)
  | fault r => exact hexec.trans (congrArg _ houtcome)
  | refused r => exact hexec.trans (congrArg _ houtcome)

end Sys2Proof.Machine
end

section
/-! PROOFS of the family 60_exceptions.md: how many events one input gives (R186, with 43_dispatcher.md R140), and a
response that races the TICK that expires its slot (R185). -/

namespace Sys2Proof.Machine

/-! ### How many events one input gives -/

/-- Every instruction's new records stand behind the old ones (R30). -/
theorem evLog_eq_append_newRecords {i : Instr} {s t : State} (h : exec i s = .next t) :
    t.evLog = s.evLog ++ newRecords s t := by
  obtain ⟨-, new, hnew⟩ := exec_extends_logs h
  rw [newRecords_of_append hnew.symm, hnew]

/-- The receive side reports at most one event: of the byte rules and the packet close, each emits at most one
(R186). -/
theorem ReceiveEffect.length_newRecords_le {s t : State} (h : ReceiveEffect s t) : (newRecords s t).length ≤ 1 := by
  obtain ⟨_, _, -, ⟨records, hrecords, rfl⟩ | ⟨_, record, -, -, rfl⟩⟩ := h
  · rw [newRecords_of_append (records := records) rfl]
    rcases hrecords with rfl | ⟨record, rfl, -⟩
    · exact Nat.zero_le 1
    · exact Nat.le_refl 1
  · rw [newRecords_of_append (records := [record]) rfl]
    exact Nat.le_refl 1

/-- A packet of any class gives one event (43_dispatcher.md R140). -/
theorem length_newRecords_of_packet {p : Packet} {s t : State} (h : exec p.toInstr s = .next t) :
    (newRecords s t).length = 1 := by
  rw [← dispatchPacket_eq_exec] at h
  rcases dispatchPacket_cases p s with ⟨record, -, hdispatch⟩ | ⟨q, record, -, -, hdispatch⟩ <;>
    cases hdispatch.symm.trans h
  · rw [newRecords_of_append (records := [record]) rfl]
    rfl
  · rw [newRecords_of_append (records := [record]) (by simp)]
    rfl

/-- A SEND that takes a step gives one event: it is rejected or accepted (R186). -/
theorem length_newRecords_of_send {flags did cid : Byte} {p : List Byte} {s t : State}
    (h : exec (.send flags did cid p) s = .next t) (hturn : holdsSend (.send flags did cid p) s = false) :
    (newRecords s t).length = 1 := by
  rcases execSend_cases flags did cid p s with ⟨-, e⟩ | ⟨-, -, -, e⟩ | ⟨hfits, hbusy, hpolicy, -⟩ | ⟨-, -, e⟩
  · cases e.symm.trans h
  · cases e.symm.trans h
    rw [newRecords_of_append (records := [[0x02, 0x01]]) rfl]
    rfl
  · rw [(holdsSend_send flags did cid p s).mpr ⟨hfits, hbusy, hpolicy⟩] at hturn
    cases hturn
  · cases e.symm.trans h
    rw [newRecords_of_append (records := [[0x01, s.seqCtr]]) (by simp [acceptSend_eq])]
    rfl

/-- Settles O12: the count of the new records, input by input. -/
theorem eventsPerInput : Obligations.EventsPerInput := by
  intro i s t h
  refine ⟨newRecords s t, evLog_eq_append_newRecords h, ?rxByte, ?send, ?packet, ?silent⟩
  case rxByte =>
    rintro ⟨b, rfl⟩
    exact (exec_effect rfl h).length_newRecords_le
  case send =>
    rintro ⟨flags, did, cid, p, rfl⟩ hturn
    exact length_newRecords_of_send h hturn
  case packet =>
    rintro ⟨p, rfl⟩
    exact length_newRecords_of_packet h
  case silent =>
    rintro (rfl | ⟨m, rfl⟩ | ⟨m, rfl⟩)
    · exact newRecords_of_exec_reset h
    · cases h
      exact newRecords_of_append (List.append_nil _).symm
    · cases h
      exact newRecords_of_append (List.append_nil _).symm

/-! ### A response against the last tick -/

/-- Two events at two ports, neither of which can hold, run in the order of the serialiser's two choices (R4, R5). -/
theorem run_two_events {s t u : State} {p p' : Port} {i i' : Instr} {rest rest' : List Byte}
    (hsched : s.sched = [p, p']) (hports : p ≠ p') (hdecode : decode (portBytes s p) = .event i rest)
    (hdecode' : decode (portBytes s p') = .event i' rest') (hholds : ∀ v, holdsSend i v = false)
    (hholds' : ∀ v, holdsSend i' v = false) (hexec : exec i (setPortBytes (setSched s [p']) p rest) = .next t)
    (hexec' : exec i' (setPortBytes (setSched t []) p' rest') = .next u) :
    Host.Core.run core 2 s = .next u := by
  have hstep : step s = .next t := (stepRunsDecodedEvent s p [p'] i rest hsched hdecode (hholds s)).trans hexec
  have hsched' : t.sched = [p'] := by
    obtain ⟨-, -, -, -, -, hkept⟩ := exec_keeps_outside hexec
    simpa using hkept
  have hport' : portBytes t p' = portBytes s p' := by
    rw [portBytes_of_exec hexec, portBytes_setPortBytes_of_ne _ hports, portBytes_setSched]
  have hstep' : step t = .next u :=
    (stepRunsDecodedEvent t p' [] i' rest' hsched' (hport' ▸ hdecode') (hholds' t)).trans hexec'
  have hrun : core.step s = .next t := hstep
  have hrun' : core.step t = .next u := hstep'
  simp only [Host.Core.run, hrun, hrun']

/-- The bytes of a synchronous response are collected, and its END alone is still to come (R86, R105). -/
structure ResponseCollected (s : State) (h : Header) (rc : Byte) (data : List Byte) (chk : Byte) : Prop where
  in_packet : s.rxState = .inPacket
  buffer : s.rxBuf = h.bytes ++ rc :: data ++ [chk]
  is_sync : classify s.cfg h.did h.cid h.seq = .sync

section ResponseCollected

variable {s t : State} {h : Header} {rc chk : Byte} {data : List Byte}

/-- What is collected is a function of three fields. -/
theorem ResponseCollected.congr (hresp : ResponseCollected s h rc data chk) (hcfg : t.cfg = s.cfg)
    (hstate : t.rxState = s.rxState) (hbuf : t.rxBuf = s.rxBuf) : ResponseCollected t h rc data chk :=
  ⟨hstate.trans hresp.in_packet, hbuf.trans hresp.buffer, hcfg ▸ hresp.is_sync⟩

/-- The END runs the response (R86). -/
theorem ResponseCollected.exec_end (hresp : ResponseCollected s h rc data chk) :
    exec (.rxByte 0xD8) s = exec (.pktSync h rc data chk) { s with rxState := .idle, rxBuf := [] } := by
  obtain ⟨-, -, hsync, -⟩ := endClosesPacket s hresp.in_packet
  exact (exec_rxByte_end hresp.in_packet).trans (hsync h rc data chk hresp.buffer hresp.is_sync)

/-- The END of a response to a pending number reports it and frees the slot (R125). -/
theorem ResponseCollected.exec_end_of_pending (hresp : ResponseCollected s h rc data chk)
    (hpending : isPending s h.seq = true) :
    ∃ t, exec (.rxByte 0xD8) s = .next t ∧ t.evLog = s.evLog ++ [responseRecord h rc data chk]
      ∧ isPending t h.seq = false := by
  have hresolved := exec_pktSync_eq_freeSlot (s := { s with rxState := .idle, rxBuf := [] }) hpending rc data chk
  exact ⟨_, hresp.exec_end.trans hresolved, by simp, by simp [isPending_freeSlot]⟩

/-- The END of a response to a free number is UNMATCHED (R126). -/
theorem ResponseCollected.exec_end_of_free (hresp : ResponseCollected s h rc data chk)
    (hfree : isPending s h.seq = false) :
    ∃ t, exec (.rxByte 0xD8) s = .next t
      ∧ t.evLog = s.evLog ++ [[0x0A, h.seq, warnOf (h.bytes ++ rc :: data) chk]] := by
  have hunmatched : exec (.pktSync h rc data chk) { s with rxState := .idle, rxBuf := [] } = .next (unmatchedResponse
      h.seq (checksumWarning (h.bytes ++ rc :: data) chk) { s with rxState := .idle, rxBuf := [] }) :=
    congrArg _ (if_neg (ne_true_of_eq_false hfree))
  rw [checksumWarning_eq_warnOf] at hunmatched
  exact ⟨_, hresp.exec_end.trans hunmatched, rfl⟩

/-- A slot that expires is free after the TICK (R127, R128). -/
theorem isPending_afterTick_of_expires {q : Byte} (hexpires : slotExpires (timerWidth s.cfg) (slotAt s q) = true) :
    isPending (afterTick s) q = false := by
  rw [isPending, slotAt_afterTick, tickSlot_valid, hexpires, Bool.not_true, Bool.and_false]

/-- The response's END, then the TICK, which finds the slot free (R185). -/
theorem ResponseCollected.run_end_then_tick (hresp : ResponseCollected s h rc data chk)
    (hpending : isPending s h.seq = true) {rest rest' : List Byte}
    (hend : decode s.rxPort = .event (.rxByte 0xD8) rest) (htick : decode s.tickPort = .event .tick rest') :
    ∃ u, Host.Core.run core 2 { s with sched := [.transport, .tick] } = .next (afterTick u)
      ∧ u.evLog = s.evLog ++ [responseRecord h rc data chk] ∧ isPending u h.seq = false := by
  have htaken : ResponseCollected (setPortBytes (setSched s [.tick]) .transport rest) h rc data chk :=
    hresp.congr rfl rfl rfl
  obtain ⟨t, hexec, hlog, hfree⟩ := htaken.exec_end_of_pending hpending
  exact ⟨_, run_two_events rfl nofun hend htick (fun _ => rfl) (fun _ => rfl) hexec (exec_tick _), hlog, hfree⟩

/-- The TICK that expires the slot, then the response's END, which finds the slot free (R185). -/
theorem ResponseCollected.run_tick_then_end (hresp : ResponseCollected s h rc data chk)
    (hexpires : slotExpires (timerWidth s.cfg) (slotAt s h.seq) = true) {rest rest' : List Byte}
    (hend : decode s.rxPort = .event (.rxByte 0xD8) rest) (htick : decode s.tickPort = .event .tick rest') :
    ∃ t, Host.Core.run core 2 { s with sched := [.tick, .transport] } = .next t
      ∧ newRecords s t = timeoutRecords (timerWidth s.cfg) 0 s.slots.toList
          ++ [[0x0A, h.seq, warnOf (h.bytes ++ rc :: data) chk]] := by
  have hfree := isPending_afterTick_of_expires (s := setPortBytes (setSched s [.transport]) .tick rest') hexpires
  have htaken : ResponseCollected (setPortBytes (setSched (afterTick (setPortBytes (setSched s [.transport])
      .tick rest')) []) .transport rest) h rc data chk := hresp.congr rfl rfl rfl
  obtain ⟨t, hexec, hlog⟩ := htaken.exec_end_of_free hfree
  exact ⟨t, run_two_events rfl nofun htick hend (fun _ => rfl) (fun _ => rfl) (exec_tick _) hexec,
    newRecords_of_append (hlog.trans (List.append_assoc ..))⟩

end ResponseCollected

/-- Settles O51: whichever goes first frees the slot, and the other finds it free. -/
theorem responseAndTimeoutRace : Obligations.ResponseAndTimeoutRace := by
  intro s h rc chk data rest rest' hin hbuf hcls hslot hend htick
  have hresp : ResponseCollected s h rc data chk := ⟨hin, hbuf, hcls⟩
  refine ⟨?endFirst, ?tickFirst⟩
  case endFirst =>
    have hpending : isPending s h.seq = true := by rw [isPending, hslot]
    obtain ⟨u, hrun, hlog, hfree⟩ := hresp.run_end_then_tick hpending hend htick
    have hnew : newRecords s (afterTick u)
        = responseRecord h rc data chk :: timeoutRecords (timerWidth u.cfg) 0 u.slots.toList :=
      newRecords_of_append ((congrArg (· ++ _) hlog).trans (List.append_assoc ..))
    refine ⟨afterTick u, responseRecord h rc data chk, hrun, by rw [hnew]; rfl, rfl, fun hmem => ?_⟩
    rw [hnew, List.mem_cons, mem_timeoutRecords] at hmem
    rcases hmem with hresponse | ⟨q, hexpires, hq⟩
    · simp [responseRecord, eventRecord] at hresponse
    · cases hq
      have hvalid : (slotAt u h.seq).valid = false := hfree
      simp [slotExpires, hvalid] at hexpires
  case tickFirst =>
    have hexpires : slotExpires (timerWidth s.cfg) (slotAt s h.seq) = true := by
      simp [slotExpires, hslot, timerPred_one]
    obtain ⟨t, hrun, hnew⟩ := hresp.run_tick_then_end hexpires hend htick
    refine ⟨t, hrun, ?timeout, ?unmatched, fun r hmem => ?noResponse⟩
    case timeout =>
      rw [hnew, List.mem_append, mem_timeoutRecords]
      exact .inl ⟨h.seq, hexpires, rfl⟩
    case unmatched => rw [hnew, List.getLast?_concat]
    case noResponse =>
      rw [hnew, List.mem_append, mem_timeoutRecords, List.mem_singleton] at hmem
      rcases hmem with ⟨q, -, rfl⟩ | rfl <;> simp

end Sys2Proof.Machine
end

section
/-! PROOFS of the family 70_reset_and_hazards.md: what RESET leaves (R210), the release of a held SEND by it (R210, with
42_correlation.md R124), and a response that comes after it (R218). -/

namespace Sys2Proof.Machine

/-! ### RESET -/

/-- RESET takes its step in every state (R210). -/
theorem exec_reset (s : State) : exec .reset s = .next (resetBlock s) := rfl

/-- After RESET no slot is pending (R210). -/
theorem isPending_resetBlock (s : State) (q : Byte) : isPending (resetBlock s) q = false := by
  rw [isPending, slotAt_resetBlock]

/-- SEQ_RESET is a number of the table (00_scope.md R6). -/
theorem seqReset_lt (c : Config) : (BitVec.ofNat 8 c.seqReset.val).toNat < 255 := by
  have := c.seqReset.isLt
  rw [BitVec.toNat_ofNat]
  omega

/-- Settles O56: the named reset state is R210's, field by field. -/
theorem resetLeaves : Obligations.ResetLeaves := exec_reset

/-! ### A response after RESET -/

/-- A response whose number is not pending is UNMATCHED and changes nothing else (R126): the number is the sentinel, or
its slot in the table is free. -/
theorem exec_pktSync_of_free {s : State} {h : Header} (hfree : isPending s h.seq = false) (rc : Byte)
    (data : List Byte) (chk : Byte) :
    exec (.pktSync h rc data chk) s =
      .next { s with evLog := s.evLog ++ [[0x0A, h.seq, warnOf (h.bytes ++ rc :: data) chk]] } := by
  obtain ⟨-, hunmatched⟩ := responseResolvedOrUnmatched s h rc data chk
  apply hunmatched
  by_cases hseq : h.seq = 0xFF
  · exact .inl hseq
  · have hlt := toNat_lt_of_ne hseq
    rw [isPending, slotAt_of_lt s hlt] at hfree
    exact .inr ⟨hlt, hfree⟩

/-- Settles O58: RESET frees every slot, so that the response finds its own free. -/
theorem responseAfterResetUnmatched : Obligations.ResponseAfterResetUnmatched := fun s h rc data chk =>
  ⟨resetBlock s, exec_reset s, resetBlock_evLog s, isPending_resetBlock s,
    exec_pktSync_of_free (isPending_resetBlock s h.seq) rc data chk⟩

/-! ### RESET and a SEND that holds -/

/-- A SEND whose slot is free does not hold (R124). -/
theorem holdsSend_of_free (flags did cid : Byte) (p : List Byte) {s : State} (hfree : isPending s s.seqCtr = false) :
    holdsSend (.send flags did cid p) s = false := by
  rw [Bool.eq_false_iff, Ne, holdsSend_send]
  rintro ⟨-, hbusy, -⟩
  simp [hfree] at hbusy

/-- The slot that an accepted SEND takes is pending (R122). -/
theorem isPending_acceptSend_self (flags did cid : Byte) (p : List Byte) {s : State} (h : s.seqCtr.toNat < 255) :
    isPending (acceptSend flags did cid p s) s.seqCtr = true := by
  rw [isPending, slotAt_acceptSend_self flags did cid p h]

/-- The turn of a RESET: it takes its event, and the block is reset (R210). -/
theorem step_reset {s : State} {ports : List Port} {rest : List Byte} (hsched : s.sched = .reset :: ports)
    (hdecode : decode s.resetPort = .event .reset rest) :
    step s = .next (resetBlock (setPortBytes (setSched s ports) .reset rest)) :=
  stepRunsDecodedEvent s .reset ports .reset rest hsched hdecode rfl

/-- The turn of a SEND within the bound whose slot is free: it takes its event and is accepted (R121). -/
theorem step_send_of_free {s : State} {flags did cid : Byte} {p rest : List Byte} {ports : List Port}
    (hsched : s.sched = .host :: ports) (hdecode : decode s.hostPort = .event (.send flags did cid p) rest)
    (hfits : p.length ≤ s.cfg.maxTxPayload.val) (hfree : isPending s s.seqCtr = false) :
    step s = .next (acceptSend flags did cid p (setPortBytes (setSched s ports) .host rest)) :=
  (stepRunsDecodedEvent s .host ports _ rest hsched hdecode (holdsSend_of_free flags did cid p hfree)).trans
    (exec_send_of_free flags did cid hfits hfree)

/-- A run of two steps. -/
theorem run_two_steps {s t u : State} (hfirst : step s = .next t) (hsecond : step t = .next u) :
    Host.Core.run core 2 s = .next u := by
  have hrun : core.step s = .next t := hfirst
  have hrun' : core.step t = .next u := hsecond
  simp only [Host.Core.run, hrun, hrun']

/-- Settles O43: RESET leaves the SEND at its port and frees the slot that the counter then names, so that the SEND is
accepted on its next turn, whether it was held before or not. -/
theorem resetReleasesHeldSend : Obligations.ResetReleasesHeldSend := by
  intro s flags did cid p rest rest' ports hsend hfits hreset hsched
  have hfirst := step_reset hsched hreset
  have hsecond := step_send_of_free (s := resetBlock (setPortBytes (setSched s (.host :: ports)) .reset rest'))
    rfl hsend hfits (isPending_resetBlock _ _)
  refine ⟨_, run_two_steps hfirst hsecond, ?txLog, ?evLog, ?hostPort, ?pending⟩
  case txLog => simp [acceptSend_eq]
  case evLog => simp [acceptSend_eq]
  case hostPort => simp [acceptSend_eq, setPortBytes]
  case pending => exact isPending_acceptSend_self flags did cid p (seqReset_lt s.cfg)

end Sys2Proof.Machine
end

section
/-! PROOFS of the family other: the turns of the serialiser that take no event. They are the model's choice (log 6), and
no rule's. -/

namespace Sys2Proof.Machine

/-- With no choice left the serialiser's run is over (log 6). -/
theorem fetch_eq_ended {s : State} (hsched : s.sched = []) : fetch s = .ended := by
  simp only [fetch, hsched]

/-- A port whose bytes are no whole event offers no input: the choice is dropped, the bytes stay (log 6). -/
theorem fetch_eq_waits {s : State} {p : Port} {ports : List Port} (hsched : s.sched = p :: ports)
    (hdecode : decode (portBytes s p) = .incomplete) : fetch s = .waits (setSched s ports) := by
  simp only [fetch, hsched, hdecode]

/-- The end of the run is the fault `noInput` (log 6). -/
theorem step_of_fetch_ended {s : State} (h : fetch s = .ended) : step s = .fault .noInput := by
  simp only [step, h]

/-- Where the chosen port offers no input, the turn that passes is the whole step (log 6). -/
theorem step_of_fetch_waits {s t : State} (h : fetch s = .waits t) : step s = .next t := by
  simp only [step, h]

/-- Settles O6, by what the serialiser finds: nothing to choose, or no whole event at the chosen port. -/
theorem emptyTurnsPass : Obligations.EmptyTurnsPass := by
  refine ⟨?noChoice, ?noEvent⟩
  case noChoice =>
    intro s hsched
    exact step_of_fetch_ended (fetch_eq_ended hsched)
  case noEvent =>
    intro s p ports hsched hdecode
    exact step_of_fetch_waits (fetch_eq_waits hsched hdecode)

end Sys2Proof.Machine
end
